-- ==== Sys2Proof/Word.lean ====
section
/-! DEFINITION. The word type and its plainest arithmetic (00_scope.md R7). -/

namespace Sys2Proof

/-- A Word: 32 bits (R7). Also an instruction word (R45). -/
abbrev Word := BitVec 32

/-- The byte in which memory is listed (R26: the addressable unit is the byte). -/
abbrev Byte := BitVec 8

/-- A register index (R10, R16). The machine has `NREGS` of them, at most 32 (R6). -/
abbrev Reg := Fin 32

/-- `S(v)`, the signed reading of a Word (R7). -/
abbrev signed (v : Word) : Int := v.toInt

/-- `U(v)`, the unsigned reading of a Word (R7). -/
abbrev unsigned (v : Word) : Nat := v.toNat

/-- `wrap32(n)`: the Word whose unsigned reading is `n mod 2^32` (R7). -/
abbrev wrap32 (n : Int) : Word := BitVec.ofInt 32 n

end Sys2Proof
end

