-- ==== Sys2Proof/Config.lean ====
section
/-! DEFINITION. What is fixed for one machine while it runs: the launch parameters the spec leaves OPEN
(00_scope.md R6) and the shape of an Instruction Descriptor (10_state.md R13). Plain data, no free value:
the spec leaves no instruction's result undefined (93_implementation_defined.md, after the table of Part 1). -/

namespace Sys2Proof

/-- `REG0_MODE` (R6, R19): what the Register File does with index 0. -/
inductive Reg0Mode
  | ordinary
  | hardwiredZero
deriving DecidableEq, Repr

/-- A half-open window `base <= a < limit` of byte addresses (R36). -/
structure Window where
  base : Nat
  limit : Nat
deriving DecidableEq, Repr

/-- The OPEN launch parameters (R6, R146) that are data: `NREGS`, `REG0_MODE`, and `MEM_VALID` as the list
of windows in which it holds. `ENC` is the list of descriptors that is registered. DESIGN CHOICE, log 1. -/
structure Params where
  nregs : Nat
  reg0 : Reg0Mode
  windows : List Window
deriving DecidableEq, Repr

/-- `3 <= NREGS <= 32` (R6, R20). -/
abbrev Params.legal (p : Params) : Prop := 3 ≤ p.nregs ∧ p.nregs ≤ 32

/-- The three operand formats (R10, R47 to R49). -/
inductive Format
  | rFormat
  | iFormat
  | iBranchFormat
deriving DecidableEq, Repr

/-- One significant character of a template (R53, R58): a fixed bit or a placeholder of a role. -/
inductive TemplateChar
  | zero
  | one
  | s
  | t
  | d
  | i
deriving DecidableEq, Repr

/-- The operation a descriptor selects: its `semantic` part as an identifier (R13, R83). -/
inductive Operation
  | gain | lose | put | weld | merge | vs | gre | dr | nos | split
  | fuel | lup | cklap | otk | turbo | skid | pit | hz | hot | cool
deriving DecidableEq, Repr

/-- An Instruction Descriptor: the five parts of R13. -/
structure Descriptor where
  mnemonic : String
  description : String
  format : Format
  template : List TemplateChar
  semantic : Operation
deriving DecidableEq, Repr

/-- `DuplicateEncoding`, with the refused descriptor (R68, R117, R123). -/
structure DuplicateEncoding where
  refused : Descriptor
deriving DecidableEq, Repr

end Sys2Proof
end

