-- ==== Sys2Proof/Syntax.lean ====
section
/-! DEFINITION. The 20 instructions with their decoded operands, in the order of 40_dispatch.md R73. -/

namespace Sys2Proof

/-- An instruction: the matched descriptor's operation with its `DecodedOperands` (R73): register indices in
assembly order and the immediate or displacement already sign-extended (R75). One constructor per row of
spec/opcode_table.json. -/
inductive Instr
  | gain (rd rs rt : Reg)
  | lose (rd rs rt : Reg)
  | put (rd rs : Reg) (simm : Word)
  | weld (rd rs rt : Reg)
  | merge (rd rs rt : Reg)
  | vs (rd rs rt : Reg)
  | gre (rt rs : Reg) (simm : Word)
  | dr (rd rs : Reg) (simm : Word)
  | nos (rd rs rt : Reg)
  | split (rd rs rt : Reg)
  | fuel (rd : Reg) (simm : Word)
  | lup (rd : Reg)
  | cklap (rd rs : Reg) (disp : Word)
  | otk (rd rs : Reg) (disp : Word)
  | turbo (rd rs : Reg)
  | skid (rd rs : Reg)
  | pit (rd rs : Reg)
  | hz (rd rs : Reg) (disp : Word)
  | hot (rd rs : Reg) (simm : Word)
  | cool (rd rs : Reg) (simm : Word)
deriving DecidableEq, Repr

end Sys2Proof
end

