-- ==== Sys2Proof/WellFormed.lean ====
section
/-! DEFINITION. When an instruction can be the product of decode: every register index is below `NREGS`
(40_dispatch.md R74) and the immediate is the sign extension of 16 bits (R50, R75). -/

namespace Sys2Proof

/-- The operand registers in the order of R73. Register 2 of `hot` is implicit and no operand (R20). -/
def Instr.regs : Instr → List Reg
  | .gain rd rs rt => [rd, rs, rt]
  | .lose rd rs rt => [rd, rs, rt]
  | .put rd rs _ => [rd, rs]
  | .weld rd rs rt => [rd, rs, rt]
  | .merge rd rs rt => [rd, rs, rt]
  | .vs rd rs rt => [rd, rs, rt]
  | .gre rt rs _ => [rt, rs]
  | .dr rd rs _ => [rd, rs]
  | .nos rd rs rt => [rd, rs, rt]
  | .split rd rs rt => [rd, rs, rt]
  | .fuel rd _ => [rd]
  | .lup rd => [rd]
  | .cklap rd rs _ => [rd, rs]
  | .otk rd rs _ => [rd, rs]
  | .turbo rd rs => [rd, rs]
  | .skid rd rs => [rd, rs]
  | .pit rd rs => [rd, rs]
  | .hz rd rs _ => [rd, rs]
  | .hot rd rs _ => [rd, rs]
  | .cool rd rs _ => [rd, rs]

/-- The immediate or displacement, where the format has one (R73, R75). -/
def Instr.imm : Instr → Option Word
  | .gain _ _ _ => none
  | .lose _ _ _ => none
  | .put _ _ simm => some simm
  | .weld _ _ _ => none
  | .merge _ _ _ => none
  | .vs _ _ _ => none
  | .gre _ _ simm => some simm
  | .dr _ _ simm => some simm
  | .nos _ _ _ => none
  | .split _ _ _ => none
  | .fuel _ simm => some simm
  | .lup _ => none
  | .cklap _ _ disp => some disp
  | .otk _ _ disp => some disp
  | .turbo _ _ => none
  | .skid _ _ => none
  | .pit _ _ => none
  | .hz _ _ disp => some disp
  | .hot _ _ simm => some simm
  | .cool _ _ simm => some simm

/-- A Word in -32768 .. 32767: what `sext_16` can give (R50, R93, R108). -/
abbrev fits16 (v : Word) : Prop := -32768 ≤ signed v ∧ signed v ≤ 32767

/-- Every operand register index is below `NREGS` (R74). -/
def Instr.regsValid (nregs : Nat) (i : Instr) : Bool := i.regs.all (fun r => decide (r.val < nregs))

/-- The immediate, if there is one, is a sign-extended 16-bit value (R75). -/
def Instr.immFits (i : Instr) : Bool := i.imm.all (fun v => decide (fits16 v))

/-- Well formed for a machine of `nregs` registers. -/
def Instr.wellFormed (nregs : Nat) (i : Instr) : Bool := i.regsValid nregs && i.immFits

end Sys2Proof
end

