-- ==== Sys2Proof/Decode.lean ====
section
/-! DEFINITION. Encoding: fields (30_encoding.md R46), sign extension (R50), templates with their mask and match
(R53, R58), the 20 rows of `ENC` (R54), registration and population (40_dispatch.md R68 to R70), `match` (R71),
`decode` with operand validation (R72 to R75), and the encoder (R65). -/

namespace Sys2Proof

/-! ### Fields of an instruction word (R46) -/

def opField (w : Word) : BitVec 6 := w.extractLsb' 26 6
def faField (w : Word) : Reg := (w.extractLsb' 21 5).toFin
def fbField (w : Word) : Reg := (w.extractLsb' 16 5).toFin
def fcField (w : Word) : Reg := (w.extractLsb' 11 5).toFin
def fzField (w : Word) : BitVec 5 := w.extractLsb' 6 5
def fnField (w : Word) : BitVec 6 := w.extractLsb' 0 6
def immField (w : Word) : BitVec 16 := w.extractLsb' 0 16

/-- `sext_16` (R50), in the rule's first form. -/
def sext16 (v : BitVec 16) : Word :=
  if v.toNat < 0x8000 then wrap32 v.toNat else wrap32 ((v.toNat : Int) - 0x10000)

/-! ### Templates (R53, R58) -/

/-- 1 at a fixed position (R53). -/
def TemplateChar.maskBit : TemplateChar → Nat
  | .zero | .one => 1
  | .s | .t | .d | .i => 0

/-- The fixed bit, 0 at a placeholder (R53). -/
def TemplateChar.matchBit : TemplateChar → Nat
  | .one => 1
  | .zero | .s | .t | .d | .i => 0

/-- The character as R58 spells it. -/
def TemplateChar.char : TemplateChar → Char
  | .zero => '0'
  | .one => '1'
  | .s => 's'
  | .t => 't'
  | .d => 'd'
  | .i => 'i'

/-- `mask` of a descriptor (R53). -/
def Descriptor.mask (d : Descriptor) : Word :=
  BitVec.ofNat 32 (d.template.foldl (fun acc c => 2 * acc + c.maskBit) 0)

/-- `match` of a descriptor (R53). -/
def Descriptor.matchBits (d : Descriptor) : Word :=
  BitVec.ofNat 32 (d.template.foldl (fun acc c => 2 * acc + c.matchBit) 0)

/-- Lengths of the groups of a template (R58): `op fa fb fc fz fn` or `op fa fb imm16`. -/
def Format.groups : Format → List Nat
  | .rFormat => [6, 5, 5, 5, 5, 6]
  | .iFormat => [6, 5, 5, 16]
  | .iBranchFormat => [6, 5, 5, 16]

/-- Characters in groups of the given lengths with one space between groups (R58). -/
def spaced : List Nat → List Char → List Char
  | [], cs => cs
  | [_], cs => cs
  | n :: ns, cs => cs.take n ++ ' ' :: spaced ns (cs.drop n)

/-- The template string as characters (R58). -/
def Descriptor.templateChars (d : Descriptor) : List Char :=
  spaced d.format.groups (d.template.map TemplateChar.char)

/-- The character read back (R58). -/
def TemplateChar.ofChar (c : Char) : Option TemplateChar :=
  if c = '0' then some .zero
  else if c = '1' then some .one
  else if c = 's' then some .s
  else if c = 't' then some .t
  else if c = 'd' then some .d
  else if c = 'i' then some .i
  else none

/-- What a reader makes of a template string (R58): it strips the spaces and requires exactly 32 characters. -/
def readTemplate (cs : List Char) : Option (List TemplateChar) :=
  if (cs.filter (· ≠ ' ')).length = 32 then (cs.filter (· ≠ ' ')).mapM TemplateChar.ofChar else none

/-- The four parts the unit exposes of each descriptor (R59, R67). -/
def Descriptor.readOut (d : Descriptor) : String × String × Format × String :=
  (d.mnemonic, d.description, d.format, String.ofList d.templateChars)

/-- `n` fixed bits holding the number `k`, most significant first. -/
def fixedBits : Nat → Nat → List TemplateChar
  | 0, _ => []
  | n + 1, k => (if k.testBit n then .one else .zero) :: fixedBits n k

/-- An R_FORMAT template (R47, R54): `op` and `fz` zero, `fn` the catalogue number. -/
def rTemplate (fa fb : TemplateChar) (k : Nat) : List TemplateChar :=
  fixedBits 6 0 ++ List.replicate 5 fa ++ List.replicate 5 fb ++ List.replicate 5 .d ++ fixedBits 5 0 ++ fixedBits 6 k

/-- An I_FORMAT or I_BRANCH_FORMAT template (R48, R49, R54): `op` the catalogue number. -/
def iTemplate (fa fb : TemplateChar) (k : Nat) : List TemplateChar :=
  fixedBits 6 k ++ List.replicate 5 fa ++ List.replicate 5 fb ++ List.replicate 16 .i

/-! ### The default `ENC` (R54, descriptions R59) -/

/-- R_FORMAT rows (R51, R54). -/
def encR : List Descriptor := [
  ⟨"gain", "rd = rs + rt", .rFormat, rTemplate .s .t 1, .gain⟩,
  ⟨"lose", "rd = rs − rt", .rFormat, rTemplate .s .t 2, .lose⟩,
  ⟨"weld", "rd = rs & rt", .rFormat, rTemplate .s .t 4, .weld⟩,
  ⟨"merge", "rd = rs | rt", .rFormat, rTemplate .s .t 5, .merge⟩,
  ⟨"vs", "rd = (rs < rt) ? 1 : 0", .rFormat, rTemplate .s .t 6, .vs⟩,
  ⟨"nos", "rd = rs * rt", .rFormat, rTemplate .s .t 9, .nos⟩,
  ⟨"split", "rd = rs / rt", .rFormat, rTemplate .s .t 10, .split⟩,
  ⟨"lup", "rd = rd + 1", .rFormat, rTemplate .zero .zero 12, .lup⟩,
  ⟨"turbo", "rd = rs + rs", .rFormat, rTemplate .s .zero 15, .turbo⟩,
  ⟨"skid", "rd = max(rs, 0)", .rFormat, rTemplate .s .zero 16, .skid⟩,
  ⟨"pit", "swap(rd, rs) values", .rFormat, rTemplate .s .zero 17, .pit⟩]

/-- I_FORMAT and I_BRANCH_FORMAT rows (R51, R54). -/
def encI : List Descriptor := [
  ⟨"put", "rd = rs + sext16(imm)", .iFormat, iTemplate .s .d 3, .put⟩,
  ⟨"gre", "mem[rs + sext16(imm)] = rt", .iFormat, iTemplate .s .t 7, .gre⟩,
  ⟨"dr", "rd = mem[rs + sext16(imm)]", .iFormat, iTemplate .s .d 8, .dr⟩,
  ⟨"fuel", "rd = sext16(imm)", .iFormat, iTemplate .zero .d 11, .fuel⟩,
  ⟨"cklap", "branch if rd == rs", .iBranchFormat, iTemplate .s .d 13, .cklap⟩,
  ⟨"otk", "branch if rd > rs", .iBranchFormat, iTemplate .s .d 14, .otk⟩,
  ⟨"hz", "branch if rd != rs", .iBranchFormat, iTemplate .s .d 18, .hz⟩,
  ⟨"hot", "rd = rs + sext16(imm); if rd > 200 then reg[2] += 1", .iFormat, iTemplate .s .d 19, .hot⟩,
  ⟨"cool", "rd = rs − sext16(imm)", .iFormat, iTemplate .s .d 20, .cool⟩]

/-- The default value of the parameter `ENC` (R54). The order has no observable effect (R14, R70). -/
def enc : List Descriptor := encR ++ encI

/-! ### Registration and population (R68 to R70) -/

/-- Some word matches both descriptors (R69). -/
def collides (a b : Descriptor) : Bool := (a.matchBits ^^^ b.matchBits) &&& a.mask &&& b.mask == 0#32

/-- `register(descriptor)` (R68): refused, with the table unchanged, when it collides with an entry. -/
def register (t : List Descriptor) (d : Descriptor) : Except DuplicateEncoding (List Descriptor) :=
  if t.any (collides d) then .error ⟨d⟩ else .ok (t ++ [d])

/-- The table after one registration, refused or not (R68, R123: population may continue). -/
def registerKeep (t : List Descriptor) (d : Descriptor) : List Descriptor :=
  match register t d with
  | .ok t' => t'
  | .error _ => t

/-- Population: a bulk load, one descriptor after another (R70). -/
def populate (t : List Descriptor) (ds : List Descriptor) : List Descriptor := ds.foldl registerKeep t

/-! ### Matching and decoding (R71 to R75) -/

/-- `(w & mask) == match` (R53). -/
def Descriptor.matchesWord (d : Descriptor) (w : Word) : Bool := w &&& d.mask == d.matchBits

/-- `match(w)` against a table (R71). -/
def matchWord (t : List Descriptor) (w : Word) : Option Descriptor := t.find? (fun d => d.matchesWord w)

/-- The operands of each operation from their fields (R52, R73), the immediate sign-extended (R75). -/
def operandsOf (o : Operation) (w : Word) : Instr :=
  match o with
  | .gain => .gain (fcField w) (faField w) (fbField w)
  | .lose => .lose (fcField w) (faField w) (fbField w)
  | .put => .put (fbField w) (faField w) (sext16 (immField w))
  | .weld => .weld (fcField w) (faField w) (fbField w)
  | .merge => .merge (fcField w) (faField w) (fbField w)
  | .vs => .vs (fcField w) (faField w) (fbField w)
  | .gre => .gre (fbField w) (faField w) (sext16 (immField w))
  | .dr => .dr (fbField w) (faField w) (sext16 (immField w))
  | .nos => .nos (fcField w) (faField w) (fbField w)
  | .split => .split (fcField w) (faField w) (fbField w)
  | .fuel => .fuel (fbField w) (sext16 (immField w))
  | .lup => .lup (fcField w)
  | .cklap => .cklap (fbField w) (faField w) (sext16 (immField w))
  | .otk => .otk (fbField w) (faField w) (sext16 (immField w))
  | .turbo => .turbo (fcField w) (faField w)
  | .skid => .skid (fcField w) (faField w)
  | .pit => .pit (fcField w) (faField w)
  | .hz => .hz (fbField w) (faField w) (sext16 (immField w))
  | .hot => .hot (fbField w) (faField w) (sext16 (immField w))
  | .cool => .cool (fbField w) (faField w) (sext16 (immField w))

/-- Match, extract, validate (R71 to R75): none is the `DecodeFault` of R119, for a word that matches no
descriptor or names a register at or above `NREGS`. -/
def decodeIn (t : List Descriptor) (nregs : Nat) (w : Word) : Option Instr :=
  match matchWord t w with
  | none => none
  | some d => if (operandsOf d.semantic w).regsValid nregs then some (operandsOf d.semantic w) else none

/-- Decoding with the REF values: the default `ENC` and `NREGS = 32` (R6). -/
def decode (w : Word) : Option Instr := decodeIn enc 32 w

/-! ### The encoder (R65) -/

/-- The operation of an instruction. -/
def Instr.operation : Instr → Operation
  | .gain _ _ _ => .gain
  | .lose _ _ _ => .lose
  | .put _ _ _ => .put
  | .weld _ _ _ => .weld
  | .merge _ _ _ => .merge
  | .vs _ _ _ => .vs
  | .gre _ _ _ => .gre
  | .dr _ _ _ => .dr
  | .nos _ _ _ => .nos
  | .split _ _ _ => .split
  | .fuel _ _ => .fuel
  | .lup _ => .lup
  | .cklap _ _ _ => .cklap
  | .otk _ _ _ => .otk
  | .turbo _ _ => .turbo
  | .skid _ _ => .skid
  | .pit _ _ => .pit
  | .hz _ _ _ => .hz
  | .hot _ _ _ => .hot
  | .cool _ _ _ => .cool

/-- The `match` column of R54 for an operation. -/
def matchOf (o : Operation) : Word :=
  match enc.find? (fun d => d.semantic == o) with
  | some d => d.matchBits
  | none => 0#32

/-- A register index shifted to its field (R65). -/
def placeReg (r : Reg) (lo : Nat) : Word := (BitVec.ofFin (w := 5) r).setWidth 32 <<< lo

/-- The low 16 bits of an immediate in its field (R65). -/
def placeImm (v : Word) : Word := v &&& 0xFFFF#32

/-- The register and immediate fields OR-ed together (R52, R65). -/
def placed : Instr → Word
  | .gain rd rs rt => placeReg rs 21 ||| placeReg rt 16 ||| placeReg rd 11
  | .lose rd rs rt => placeReg rs 21 ||| placeReg rt 16 ||| placeReg rd 11
  | .put rd rs simm => placeReg rs 21 ||| placeReg rd 16 ||| placeImm simm
  | .weld rd rs rt => placeReg rs 21 ||| placeReg rt 16 ||| placeReg rd 11
  | .merge rd rs rt => placeReg rs 21 ||| placeReg rt 16 ||| placeReg rd 11
  | .vs rd rs rt => placeReg rs 21 ||| placeReg rt 16 ||| placeReg rd 11
  | .gre rt rs simm => placeReg rs 21 ||| placeReg rt 16 ||| placeImm simm
  | .dr rd rs simm => placeReg rs 21 ||| placeReg rd 16 ||| placeImm simm
  | .nos rd rs rt => placeReg rs 21 ||| placeReg rt 16 ||| placeReg rd 11
  | .split rd rs rt => placeReg rs 21 ||| placeReg rt 16 ||| placeReg rd 11
  | .fuel rd simm => placeReg rd 16 ||| placeImm simm
  | .lup rd => placeReg rd 11
  | .cklap rd rs disp => placeReg rs 21 ||| placeReg rd 16 ||| placeImm disp
  | .otk rd rs disp => placeReg rs 21 ||| placeReg rd 16 ||| placeImm disp
  | .turbo rd rs => placeReg rs 21 ||| placeReg rd 11
  | .skid rd rs => placeReg rs 21 ||| placeReg rd 11
  | .pit rd rs => placeReg rs 21 ||| placeReg rd 11
  | .hz rd rs disp => placeReg rs 21 ||| placeReg rd 16 ||| placeImm disp
  | .hot rd rs simm => placeReg rs 21 ||| placeReg rd 16 ||| placeImm simm
  | .cool rd rs simm => placeReg rs 21 ||| placeReg rd 16 ||| placeImm simm

/-- The instruction word (R65): `match` OR-ed with the placed operands. -/
def encode (i : Instr) : Word := matchOf i.operation ||| placed i

/-- The 16-bit field an assembler stores for the integer `n` (R62): encodable iff `-32768 <= n <= 65535`. -/
def encodeImm (n : Int) : Option (BitVec 16) :=
  if -32768 ≤ n ∧ n ≤ 65535 then some (BitVec.ofInt 16 n) else none

/-- The displacement field of a branch at address `a` to a label at address `l` (R63): encodable iff the
distance from `a + 4` is a multiple of 4 and its quarter lies in -32768 .. 32767. -/
def encodeLabel (a l : Nat) : Option (BitVec 16) :=
  if ((l : Int) - (a + 4)) % 4 = 0 ∧ -32768 ≤ ((l : Int) - (a + 4)) / 4 ∧ ((l : Int) - (a + 4)) / 4 ≤ 32767
  then some (BitVec.ofInt 16 (((l : Int) - (a + 4)) / 4)) else none

/-- The instruction the decoder reads from a word numbered as spec/opcode_table.json numbers its bits. An
instruction is one 32-bit word (R45) handed over whole (20_memory.md R44), so no byte order enters; a
number that does not fit one word is no instruction. -/
def decodeTableWord (nbits w : Nat) : Option Instr :=
  if nbits ≤ 32 ∧ w < 2 ^ 32 then decode (BitVec.ofNat 32 w) else none

end Sys2Proof
end

