-- ==== Sys2Proof/Machine/Ref.lean ====
section
/-! DEFINITION. The values of REF, the reference host, and of the fixed parameters (00_scope.md R6). -/

namespace Sys2Proof.Machine

/-- `TEXT_BASE` (R6, D16): address of the first program word. -/
def textBase : Nat := 0x00400000

/-- `BR_SHIFT` (R6, R113). -/
def brShift : Nat := 2

/-- `HOT_REG` (R6, R97): the register `hot` counts in. -/
def hotReg : Reg := 2

/-- `HOT_LIMIT` (R6, R97). -/
def hotLimit : Int := 200

/-- REF's `MEM_VALID` (R36, R40): 1024 words of data memory. -/
def refWindows : List Window := [⟨0x10010000, 0x10011000⟩]

/-- REF's values of the OPEN parameters (R6). -/
def refParams : Params := ⟨32, .ordinary, refWindows⟩

end Sys2Proof.Machine
end

