-- ==== Sys2Proof/Machine/State.lean ====
section
/-! DEFINITION. The whole state of the machine (10_state.md R30, R14, R15), the reasons a step can stop, and the
state after reset (R29, 70_reset_and_hazards.md R135 to R137). -/

namespace Sys2Proof.Machine

/-- The unit's two phases (R15). -/
inductive Phase
  | population
  | run
deriving DecidableEq, Repr

/-- An abnormal outcome of the run phase with its payload (R117). -/
inductive FaultReport
  /-- No descriptor matches, or a register index is not below `NREGS` (R119). -/
  | decode (w : Word)
  /-- Division by zero (R121). -/
  | arithmetic (w : Word)
  /-- Misaligned or out-of-range address (R122). -/
  | memory (w addr : Word)
  /-- Fetch outside the program, REF only (R133). -/
  | fetch (pc : Word)
deriving DecidableEq, Repr

/-- The run status of REF (R30, R127, R139). -/
inductive Status
  | running
  | halted
  | faulted (f : FaultReport)
deriving DecidableEq, Repr

/-- Data memory: address and byte pairs, addresses strictly rising, no entry equal to what an unlisted
address reads as (`Memory.wf`). Log 3 and 4. -/
abbrev Memory := List Host.Cell

/-- The state of unit, collaborators and REF. `params` and `pending` are the model's own fields (log 1, 5);
the rest is R14, R15 and R30. -/
structure State where
  /-- The launch parameters (R6, R146); no step changes them. -/
  params : Params
  /-- The Instruction Table `T` (R14). -/
  table : List Descriptor
  /-- The unit's phase (R15). -/
  phase : Phase
  /-- What the host has still to register in the population phase (R70, R135). -/
  pending : List Descriptor
  /-- The Register File's cells (R16); those at and above `NREGS` are never named (log 13). -/
  regs : Vector Word 32
  /-- The Memory Model's contents (R26). -/
  mem : Memory
  /-- REF's program counter (R22). -/
  pc : Word
  /-- REF's run status (R30). -/
  status : Status
  /-- REF's program (R27). -/
  prog : List Word
deriving DecidableEq, Repr

/-- Why a step does not exist. Both are safe: the spec itself gives a stopped machine no step (R143). -/
inductive Fault
  /-- Raised by `step` when the run has ended normally (R139). Safe. -/
  | runHalted
  /-- Raised by `step` when the run has ended in a fault, which REF never resumes (R128). Safe. -/
  | runFaulted
deriving DecidableEq, Repr

/-- Why an instruction has no meaning. -/
inductive Refusal
  /-- Answered by an arm of `exec` for an instruction not modelled yet; no arm does. Safe. -/
  | notModelled (mnemonic : String)
deriving DecidableEq, Repr

/-- The outcome type of a step of this machine. -/
abbrev StepOutcome := Host.Outcome State Fault Refusal

/-- Reset (R29, R135 to R137): empty table, population phase, `pc = TEXT_BASE`, status Running. Registers 0
(log 2), no memory byte listed (log 3), no program loaded (log 6) and the REF parameters (log 1) are the model's
choice of launch inputs. -/
def State.reset : State where
  params := refParams
  table := []
  phase := .population
  pending := enc
  regs := Vector.replicate 32 0#32
  mem := []
  pc := BitVec.ofNat 32 textBase
  status := .running
  prog := []

end Sys2Proof.Machine
end

