-- ==== Sys2Proof/Machine/Ops.lean ====
section
/-! DEFINITION. The named operations over registers, memory and REF's control state: the Register File contract
(10_state.md R17 to R19), the Memory Model contract (20_memory.md R33 to R36), what the unit hands back
(40_dispatch.md R77) and what REF does with it (45_branch.md R113, 60_exceptions.md R127). -/

namespace Sys2Proof.Machine

/-! ### Register File -/

/-- Register 0 reads as zero and discards writes (R19). -/
def State.reg0Wired (s : State) (r : Reg) : Bool := s.params.reg0 == .hardwiredZero && r == 0

/-- `get(index)` (R17), under `REG0_MODE` (R19). -/
def State.readReg (s : State) (r : Reg) : Word := if s.reg0Wired r then 0#32 else s.regs[r]

/-- `set(index, v)` (R18), under `REG0_MODE` (R19). -/
def State.writeReg (s : State) (r : Reg) (v : Word) : State :=
  if s.reg0Wired r then s else { s with regs := s.regs.set r v }

/-! ### Bytes of memory -/

/-- What an unlisted byte reads as. DESIGN CHOICE, log 3: the spec leaves launch contents open (R29). -/
def unlistedByte : Byte := 0#8

/-- Canonical form: addresses strictly rising, no entry that reads as an unlisted one. -/
abbrev Memory.wf (m : Memory) : Prop :=
  m.Pairwise (fun x y => x.1 < y.1) ∧ ∀ c ∈ m, c.2 ≠ unlistedByte

/-- The byte at an address. -/
def Memory.readByte : Memory → Nat → Byte
  | [], _ => unlistedByte
  | (k, v) :: rest, a => if k = a then v else Memory.readByte rest a

/-- Put an entry in front, unless it reads as an unlisted one. -/
def Memory.consByte (a : Nat) (b : Byte) (m : Memory) : Memory :=
  if b = unlistedByte then m else (a, b) :: m

/-- Store one byte, keeping the canonical form. -/
def Memory.writeByte : Memory → Nat → Byte → Memory
  | [], a, b => Memory.consByte a b []
  | (k, v) :: rest, a, b =>
    if k < a then (k, v) :: Memory.writeByte rest a b
    else if k = a then Memory.consByte a b rest
    else Memory.consByte a b ((k, v) :: rest)

/-! ### Words of memory, little-endian (R38 recommends it; log 4; unobservable) -/

/-- Four bytes from `a`, the lowest address least significant. -/
def Memory.readWord (m : Memory) (a : Nat) : Word :=
  Memory.readByte m (a + 3) ++ Memory.readByte m (a + 2) ++ Memory.readByte m (a + 1) ++ Memory.readByte m a

/-- Four bytes to `a`, the lowest address least significant. -/
def Memory.writeWord (m : Memory) (a : Nat) (v : Word) : Memory :=
  Memory.writeByte (Memory.writeByte (Memory.writeByte (Memory.writeByte m a (v.extractLsb' 0 8))
    (a + 1) (v.extractLsb' 8 8)) (a + 2) (v.extractLsb' 16 8)) (a + 3) (v.extractLsb' 24 8)

/-! ### Memory Model -/

/-- `MEM_VALID(addr)` (R36). -/
def memValid (p : Params) (addr : Word) : Bool :=
  p.windows.any (fun w => decide (w.base ≤ unsigned addr) && decide (unsigned addr < w.limit))

/-- `addr mod 4 = 0` (R35). -/
def aligned (addr : Word) : Bool := unsigned addr % 4 == 0

/-- A word access at `addr` is accepted (R33 to R36). -/
def accepts (p : Params) (addr : Word) : Bool := aligned addr && memValid p addr

/-- `get_word(addr)` (R33): none is the address error. -/
def State.getWord (s : State) (addr : Word) : Option Word :=
  if accepts s.params addr then some (Memory.readWord s.mem (unsigned addr)) else none

/-- `set_word(addr, v)` (R34): none is the address error. -/
def State.setWord (s : State) (addr v : Word) : Option State :=
  if accepts s.params addr then some { s with mem := Memory.writeWord s.mem (unsigned addr) v } else none

/-! ### Program words -/

/-- `pc` is the address of a program word (R44). -/
def State.fetchable (s : State) : Bool :=
  unsigned s.pc % 4 == 0 && decide (textBase ≤ unsigned s.pc) && decide (unsigned s.pc < textBase + 4 * s.prog.length)

/-- REF's instruction fetch (R44). -/
def State.fetchWord (s : State) : Option Word :=
  if s.fetchable then s.prog[(unsigned s.pc - textBase) / 4]? else none

/-- The word being executed: the program word at `pc` (R22: during an instruction `pc` holds its address).
`exec` hands it to the unit as the word of the instruction. DEDUCED, log 8. -/
def State.currentWord (s : State) : Word := s.fetchWord.getD 0#32

/-! ### The unit's result and REF's reaction -/

/-- `ExecutionResult` (R10, R77): what the unit hands the host for one executed instruction. `instr` is the instruction
word, the "faulting instruction" context of R118. -/
inductive ExecutionResult
  | ok (branch : Option Word)
  | arithmeticFault (instr : Word)
  | memoryFault (instr addr : Word)
deriving DecidableEq, Repr

/-- What the unit makes of one instruction (R76, R81): the registers and memory with the instruction's writes done,
inside the state that holds them, and the result. -/
structure UnitOutcome where
  state : State
  result : ExecutionResult
deriving DecidableEq, Repr

/-- Taking a fault in REF (R127): the status records kind and payload; `pc`, registers and memory stay. There
is no handler, no saved register and no return from it (R124, R128, R129). -/
def State.takeFault (s : State) (f : FaultReport) : State := { s with status := .faulted f }

/-- The normal end of a run (R139). -/
def State.halt (s : State) : State := { s with status := .halted }

/-- Where a taken branch goes (R113, R114). -/
def branchTarget (pc disp : Word) : Word := pc + 4#32 + (disp <<< brShift)

/-- REF's reaction to the unit's result (R113, R127). -/
def State.react (s : State) (r : ExecutionResult) : State :=
  match r with
  | .ok none => { s with pc := s.pc + 4#32 }
  | .ok (some disp) => { s with pc := branchTarget s.pc disp }
  | .arithmeticFault w => s.takeFault (.arithmetic w)
  | .memoryFault w addr => s.takeFault (.memory w addr)

/-- The end of every meaning: REF's reaction to what the unit made of the instruction. -/
def finish (o : UnitOutcome) : StepOutcome := .next (o.state.react o.result)

end Sys2Proof.Machine
end

