-- ==== Sys2Proof/Machine/Operands.lean ====
section
/-! DEFINITION. Operand forms and integer results (41_arith_register.md R92, 44_load_store.md R104): exact integer
arithmetic on signed readings, narrowed by `wrap32`. -/

namespace Sys2Proof.Machine

/-- `wrap32(S(a) + S(b))` (R86, R92). -/
def sumWord (a b : Word) : Word := wrap32 (signed a + signed b)

/-- `wrap32(S(a) - S(b))` (R87, R92). -/
def differenceWord (a b : Word) : Word := wrap32 (signed a - signed b)

/-- `wrap32(S(a) * S(b))` (R88, R92). -/
def productWord (a b : Word) : Word := wrap32 (signed a * signed b)

/-- `DIV(a, b)` for a non-zero divisor (R89): the quotient rounded toward zero, wrapped. Log 10. -/
def quotientWord (a b : Word) : Word :=
  wrap32 ((signed a).sign * (signed b).sign * ((((signed a).natAbs / (signed b).natAbs : Nat)) : Int))

/-- The one addressing mode: base register plus sign-extended offset (R32, R104). -/
def State.effectiveAddress (s : State) (rs : Reg) (simm : Word) : Word := sumWord (s.readReg rs) simm

end Sys2Proof.Machine
end

