-- ==== Sys2Proof/Machine/Arith.lean ====
section
/-! DEFINITION. Register-register arithmetic (41_arith_register.md). For each instruction first what the unit makes of
it, then its step. -/

namespace Sys2Proof.Machine

/-- R86. -/
def unitGain (rd rs rt : Reg) (s : State) : UnitOutcome :=
  ⟨s.writeReg rd (sumWord (s.readReg rs) (s.readReg rt)), .ok none⟩

/-- `gain` with REF's reaction. -/
def execGain (rd rs rt : Reg) (s : State) : StepOutcome :=
  finish (unitGain rd rs rt s)

/-- R87. -/
def unitLose (rd rs rt : Reg) (s : State) : UnitOutcome :=
  ⟨s.writeReg rd (differenceWord (s.readReg rs) (s.readReg rt)), .ok none⟩

/-- `lose` with REF's reaction. -/
def execLose (rd rs rt : Reg) (s : State) : StepOutcome :=
  finish (unitLose rd rs rt s)

/-- R88. -/
def unitNos (rd rs rt : Reg) (s : State) : UnitOutcome :=
  ⟨s.writeReg rd (productWord (s.readReg rs) (s.readReg rt)), .ok none⟩

/-- `nos` with REF's reaction. -/
def execNos (rd rs rt : Reg) (s : State) : StepOutcome :=
  finish (unitNos rd rs rt s)

/-- R89: the divisor is tested before any write. `w` is the instruction word. -/
def unitSplit (rd rs rt : Reg) (w : Word) (s : State) : UnitOutcome :=
  if s.readReg rt = 0#32 then ⟨s, .arithmeticFault w⟩
  else ⟨s.writeReg rd (quotientWord (s.readReg rs) (s.readReg rt)), .ok none⟩

/-- `split` with REF's reaction. -/
def execSplit (rd rs rt : Reg) (s : State) : StepOutcome :=
  finish (unitSplit rd rs rt s.currentWord s)

/-- R90. -/
def unitTurbo (rd rs : Reg) (s : State) : UnitOutcome :=
  ⟨s.writeReg rd (sumWord (s.readReg rs) (s.readReg rs)), .ok none⟩

/-- `turbo` with REF's reaction. -/
def execTurbo (rd rs : Reg) (s : State) : StepOutcome :=
  finish (unitTurbo rd rs s)

/-- R91. -/
def unitLup (rd : Reg) (s : State) : UnitOutcome :=
  ⟨s.writeReg rd (sumWord (s.readReg rd) 1#32), .ok none⟩

/-- `lup` with REF's reaction. -/
def execLup (rd : Reg) (s : State) : StepOutcome :=
  finish (unitLup rd s)

end Sys2Proof.Machine
end

