-- ==== Sys2Proof/Machine/Flags.lean ====
section
/-! DEFINITION. There are no flags and no condition codes (10_state.md R23). These are the comparisons instructions
make directly on Words: ordered ones on signed readings (00_scope.md R7, 41_arith_register.md R92). -/

namespace Sys2Proof.Machine

/-- `S(a) < S(b)` (R101). -/
def lessThan (a b : Word) : Bool := decide (signed a < signed b)

/-- `S(a) > S(b)` (R111). -/
def greaterThan (a b : Word) : Bool := decide (signed a > signed b)

/-- Equality of all 32 bits (R110). -/
def equalTo (a b : Word) : Bool := a == b

/-- The strict, signed threshold test of `hot` (R97). -/
def overLimit (v : Word) : Bool := decide (signed v > hotLimit)

/-- `max(a, 0)` on signed readings (R102). -/
def clampAtZero (a : Word) : Word := if signed a > 0 then a else 0#32

end Sys2Proof.Machine
end

