-- ==== Sys2Proof/Machine/Branch.lean ====
section
/-! DEFINITION. Conditional branches (45_branch.md). The unit signals the displacement (R108); REF moves `pc` (R113). For each
instruction first what the unit makes of it, then its step. -/

namespace Sys2Proof.Machine

/-- The result of a branch instruction whose condition is `taken` (R108). -/
def branchIf (taken : Bool) (disp : Word) : ExecutionResult := .ok (if taken then some disp else none)

/-- R110. -/
def unitCklap (rd rs : Reg) (disp : Word) (s : State) : UnitOutcome :=
  ⟨s, branchIf (equalTo (s.readReg rd) (s.readReg rs)) disp⟩

/-- `cklap` with REF's reaction. -/
def execCklap (rd rs : Reg) (disp : Word) (s : State) : StepOutcome :=
  finish (unitCklap rd rs disp s)

/-- R111: the first-named register stands on the left. -/
def unitOtk (rd rs : Reg) (disp : Word) (s : State) : UnitOutcome :=
  ⟨s, branchIf (greaterThan (s.readReg rd) (s.readReg rs)) disp⟩

/-- `otk` with REF's reaction. -/
def execOtk (rd rs : Reg) (disp : Word) (s : State) : StepOutcome :=
  finish (unitOtk rd rs disp s)

/-- R112. -/
def unitHz (rd rs : Reg) (disp : Word) (s : State) : UnitOutcome :=
  ⟨s, branchIf (!equalTo (s.readReg rd) (s.readReg rs)) disp⟩

/-- `hz` with REF's reaction. -/
def execHz (rd rs : Reg) (disp : Word) (s : State) : StepOutcome :=
  finish (unitHz rd rs disp s)

end Sys2Proof.Machine
end

