-- ==== Sys2Proof/Machine/Immediate.lean ====
section
/-! DEFINITION. Immediate arithmetic (42_arith_immediate.md). The immediate comes sign-extended from decode (R75). For each
instruction first what the unit makes of it, then its step. -/

namespace Sys2Proof.Machine

/-- The count of `hot` (R97): register 2 plus one, read from the state it is given. -/
def State.countHot (s : State) : State := s.writeReg hotReg (sumWord (s.readReg hotReg) 1#32)

/-- R94. -/
def unitPut (rd rs : Reg) (simm : Word) (s : State) : UnitOutcome :=
  ⟨s.writeReg rd (sumWord (s.readReg rs) simm), .ok none⟩

/-- `put` with REF's reaction. -/
def execPut (rd rs : Reg) (simm : Word) (s : State) : StepOutcome :=
  finish (unitPut rd rs simm s)

/-- R95. -/
def unitFuel (rd : Reg) (simm : Word) (s : State) : UnitOutcome :=
  ⟨s.writeReg rd simm, .ok none⟩

/-- `fuel` with REF's reaction. -/
def execFuel (rd : Reg) (simm : Word) (s : State) : StepOutcome :=
  finish (unitFuel rd simm s)

/-- R96. -/
def unitCool (rd rs : Reg) (simm : Word) (s : State) : UnitOutcome :=
  ⟨s.writeReg rd (differenceWord (s.readReg rs) simm), .ok none⟩

/-- `cool` with REF's reaction. -/
def execCool (rd rs : Reg) (simm : Word) (s : State) : StepOutcome :=
  finish (unitCool rd rs simm s)

/-- R97: the test is on the computed sum, and register 2 is read after the write of `rd` (R80). -/
def unitHot (rd rs : Reg) (simm : Word) (s : State) : UnitOutcome :=
  if overLimit (sumWord (s.readReg rs) simm)
  then ⟨(s.writeReg rd (sumWord (s.readReg rs) simm)).countHot, .ok none⟩
  else ⟨s.writeReg rd (sumWord (s.readReg rs) simm), .ok none⟩

/-- `hot` with REF's reaction. -/
def execHot (rd rs : Reg) (simm : Word) (s : State) : StepOutcome :=
  finish (unitHot rd rs simm s)

end Sys2Proof.Machine
end

