-- ==== Sys2Proof/Machine/LoadStore.lean ====
section
/-! DEFINITION. Load and store (44_load_store.md). For each instruction first what the unit makes of it (`w` is the
instruction word), then its step. -/

namespace Sys2Proof.Machine

/-- R105: nothing is stored when the address is refused. -/
def unitGre (rt rs : Reg) (simm : Word) (w : Word) (s : State) : UnitOutcome :=
  match s.setWord (s.effectiveAddress rs simm) (s.readReg rt) with
  | some s' => ⟨s', .ok none⟩
  | none => ⟨s, .memoryFault w (s.effectiveAddress rs simm)⟩

/-- `gre` with REF's reaction. -/
def execGre (rt rs : Reg) (simm : Word) (s : State) : StepOutcome :=
  finish (unitGre rt rs simm s.currentWord s)

/-- R106: `rd` is not written when the address is refused. -/
def unitDr (rd rs : Reg) (simm : Word) (w : Word) (s : State) : UnitOutcome :=
  match s.getWord (s.effectiveAddress rs simm) with
  | some v => ⟨s.writeReg rd v, .ok none⟩
  | none => ⟨s, .memoryFault w (s.effectiveAddress rs simm)⟩

/-- `dr` with REF's reaction. -/
def execDr (rd rs : Reg) (simm : Word) (s : State) : StepOutcome :=
  finish (unitDr rd rs simm s.currentWord s)

end Sys2Proof.Machine
end

