-- ==== Sys2Proof/Machine/Logic.lean ====
section
/-! DEFINITION. Logic, compare, clamp and swap (43_logic_compare_move.md). For each instruction first what the unit makes
of it, then its step. -/

namespace Sys2Proof.Machine

/-- R99. -/
def unitWeld (rd rs rt : Reg) (s : State) : UnitOutcome :=
  ⟨s.writeReg rd (s.readReg rs &&& s.readReg rt), .ok none⟩

/-- `weld` with REF's reaction. -/
def execWeld (rd rs rt : Reg) (s : State) : StepOutcome :=
  finish (unitWeld rd rs rt s)

/-- R100. -/
def unitMerge (rd rs rt : Reg) (s : State) : UnitOutcome :=
  ⟨s.writeReg rd (s.readReg rs ||| s.readReg rt), .ok none⟩

/-- `merge` with REF's reaction. -/
def execMerge (rd rs rt : Reg) (s : State) : StepOutcome :=
  finish (unitMerge rd rs rt s)

/-- R101. -/
def unitVs (rd rs rt : Reg) (s : State) : UnitOutcome :=
  ⟨s.writeReg rd (if lessThan (s.readReg rs) (s.readReg rt) then 1#32 else 0#32), .ok none⟩

/-- `vs` with REF's reaction. -/
def execVs (rd rs rt : Reg) (s : State) : StepOutcome :=
  finish (unitVs rd rs rt s)

/-- R102. -/
def unitSkid (rd rs : Reg) (s : State) : UnitOutcome :=
  ⟨s.writeReg rd (clampAtZero (s.readReg rs)), .ok none⟩

/-- `skid` with REF's reaction. -/
def execSkid (rd rs : Reg) (s : State) : StepOutcome :=
  finish (unitSkid rd rs s)

/-- R103: both reads come before either write. -/
def unitPit (rd rs : Reg) (s : State) : UnitOutcome :=
  ⟨(s.writeReg rd (s.readReg rs)).writeReg rs (s.readReg rd), .ok none⟩

/-- `pit` with REF's reaction. -/
def execPit (rd rs : Reg) (s : State) : StepOutcome :=
  finish (unitPit rd rs s)

end Sys2Proof.Machine
end

