-- ==== Sys2Proof/Machine/Dispatch.lean ====
section
/-! DEFINITION. The dispatch table of 40_dispatch.md R83: one arm per mnemonic. -/

namespace Sys2Proof.Machine

/-- `execute` with REF's reaction: the operation alone selects the meaning (R83). -/
def exec (i : Instr) (s : State) : Host.Outcome State Fault Refusal :=
  match i with
  | .gain rd rs rt => Sys2Proof.Machine.execGain rd rs rt s
  | .lose rd rs rt => Sys2Proof.Machine.execLose rd rs rt s
  | .put rd rs simm => Sys2Proof.Machine.execPut rd rs simm s
  | .weld rd rs rt => Sys2Proof.Machine.execWeld rd rs rt s
  | .merge rd rs rt => Sys2Proof.Machine.execMerge rd rs rt s
  | .vs rd rs rt => Sys2Proof.Machine.execVs rd rs rt s
  | .gre rt rs simm => Sys2Proof.Machine.execGre rt rs simm s
  | .dr rd rs simm => Sys2Proof.Machine.execDr rd rs simm s
  | .nos rd rs rt => Sys2Proof.Machine.execNos rd rs rt s
  | .split rd rs rt => Sys2Proof.Machine.execSplit rd rs rt s
  | .fuel rd simm => Sys2Proof.Machine.execFuel rd simm s
  | .lup rd => Sys2Proof.Machine.execLup rd s
  | .cklap rd rs disp => Sys2Proof.Machine.execCklap rd rs disp s
  | .otk rd rs disp => Sys2Proof.Machine.execOtk rd rs disp s
  | .turbo rd rs => Sys2Proof.Machine.execTurbo rd rs s
  | .skid rd rs => Sys2Proof.Machine.execSkid rd rs s
  | .pit rd rs => Sys2Proof.Machine.execPit rd rs s
  | .hz rd rs disp => Sys2Proof.Machine.execHz rd rs disp s
  | .hot rd rs simm => Sys2Proof.Machine.execHot rd rs simm s
  | .cool rd rs simm => Sys2Proof.Machine.execCool rd rs simm s

end Sys2Proof.Machine
end

