-- ==== Sys2Proof/Machine/Fetch.lean ====
section
/-! DEFINITION. What REF does before an instruction executes: population (40_dispatch.md R70), the end of the run
(70_reset_and_hazards.md R139), fetch and decode (R143), and the loader's stand-in for tests. -/

namespace Sys2Proof.Machine

/-- One registration by the host (R68, R70); with the last one the run phase begins (R135). DESIGN CHOICE,
log 5: one registration is one step. -/
def State.registerNext (s : State) : State :=
  match s.pending with
  | [] => { s with phase := .run }
  | d :: rest =>
    { s with table := registerKeep s.table d, pending := rest, phase := if rest.isEmpty then .run else .population }

/-- `pc` stands just past the last program word (R139). -/
def State.atEnd (s : State) : Bool := unsigned s.pc == textBase + 4 * s.prog.length

/-- What the host and the decoder settle before execution. -/
inductive FrontEnd
  /-- No step exists (R143). -/
  | stuck (r : Fault)
  /-- The step is the host's alone. -/
  | host (s' : State)
  /-- An instruction executes. -/
  | issue (i : Instr)
deriving DecidableEq, Repr

/-- Fetch and decode in the run phase, in the order of R143; a `pc` that is neither the end nor the address of
a program word is the `FetchFault` of R133. -/
def State.fetchDecode (s : State) : FrontEnd :=
  if s.atEnd then .host s.halt
  else
    match s.fetchWord with
    | none => .host (s.takeFault (.fetch s.pc))
    | some w =>
      match decodeIn s.table s.params.nregs w with
      | none => .host (s.takeFault (.decode w))
      | some i => .issue i

/-- R143: a stopped machine has no step; before the run phase the host registers (R15). -/
def State.frontEnd (s : State) : FrontEnd :=
  match s.status, s.phase with
  | .halted, _ => .stuck .runHalted
  | .faulted _, _ => .stuck .runFaulted
  | .running, .population => .host s.registerNext
  | .running, .run => s.fetchDecode

/-- The number of the program word `pc` stands at, where `pc` stands at one or just past the last one. -/
def State.slot (s : State) : Option Nat :=
  if s.fetchable || s.atEnd then some ((unsigned s.pc - textBase) / 4) else none

/-- The loader's stand-in (R5, R146; log 5): the default table is populated, the run is on, and the word stands
where REF fetches next. Where `pc` stands at no program word and not at the end, the program is that one
word and `pc` its address. -/
def State.placeWord (s : State) (w : Word) : State :=
  match s.slot with
  | some k =>
    { s with
      table := enc, pending := [], phase := .run, status := .running,
      prog := s.prog.take k ++ w :: s.prog.drop (k + 1) }
  | none =>
    { s with
      table := enc, pending := [], phase := .run, status := .running,
      prog := [w], pc := BitVec.ofNat 32 textBase }

end Sys2Proof.Machine
end

