-- ==== Sys2Proof/Machine/Step.lean ====
section
/-! DEFINITION. One step of the machine: REF's step (70_reset_and_hazards.md R143), with population before the run
(10_state.md R15). -/

namespace Sys2Proof.Machine

/-- One step (R143). -/
def step (s : State) : Host.Outcome State Fault Refusal :=
  match s.frontEnd with
  | .stuck r => .fault r
  | .host s' => .next s'
  | .issue i => exec i s

/-- The state with an instruction word where the next step fetches it (log 5). -/
def State.withFetchWord (s : State) (_nbits w : Nat) : State := s.placeWord (BitVec.ofNat 32 w)

end Sys2Proof.Machine
end

