-- ==== Sys2Proof/Machine/Unit.lean ====
section
/-! DEFINITION. The unit as the host sees it, without REF: `execute` (40_dispatch.md R76, R83), the whole-instruction
result (R77), `unit_step` (R81), and REF's reaction to it (70_reset_and_hazards.md R143). -/

namespace Sys2Proof.Machine

/-- `execute` (R76) of the instruction word `w` decoded to `i`: the operation alone selects the semantic function (R83);
`w` is only the context a fault carries (R77, R118). -/
def execute (i : Instr) (w : Word) (s : State) : UnitOutcome :=
  match i with
  | .gain rd rs rt => unitGain rd rs rt s
  | .lose rd rs rt => unitLose rd rs rt s
  | .put rd rs simm => unitPut rd rs simm s
  | .weld rd rs rt => unitWeld rd rs rt s
  | .merge rd rs rt => unitMerge rd rs rt s
  | .vs rd rs rt => unitVs rd rs rt s
  | .gre rt rs simm => unitGre rt rs simm w s
  | .dr rd rs simm => unitDr rd rs simm w s
  | .nos rd rs rt => unitNos rd rs rt s
  | .split rd rs rt => unitSplit rd rs rt w s
  | .fuel rd simm => unitFuel rd simm s
  | .lup rd => unitLup rd s
  | .cklap rd rs disp => unitCklap rd rs disp s
  | .otk rd rs disp => unitOtk rd rs disp s
  | .turbo rd rs => unitTurbo rd rs s
  | .skid rd rs => unitSkid rd rs s
  | .pit rd rs => unitPit rd rs s
  | .hz rd rs disp => unitHz rd rs disp s
  | .hot rd rs simm => unitHot rd rs simm s
  | .cool rd rs simm => unitCool rd rs simm s

/-- The whole-instruction result (R77, R81). -/
inductive UnitResult
  | decodeFault (instr : Word)
  | executed (r : ExecutionResult)
deriving DecidableEq, Repr

/-- `unit_step` (R81): match, decode, validate, execute; the state with the updated registers and memory, and the
result. -/
def unitStep (w : Word) (s : State) : State × UnitResult :=
  match decodeIn s.table s.params.nregs w with
  | none => (s, .decodeFault w)
  | some i => ((execute i w s).state, .executed (execute i w s).result)

/-- REF's reaction to the whole-instruction result (R113, R127, R143). -/
def State.reactTo (s : State) (r : UnitResult) : State :=
  match r with
  | .decodeFault w => s.takeFault (.decode w)
  | .executed r => s.react r

end Sys2Proof.Machine
end

