-- ==== Sys2Proof/Machine/Port.lean ====
section
/-! DEFINITION. The signal-level rendering of a result (60_exceptions.md R120). Nothing in the machine depends on it. -/

namespace Sys2Proof.Machine

/-- The fault port: `fault_kind`, `branch_valid` and the two info words (R120). -/
structure PortReport where
  kind : BitVec 3
  branchValid : Bool
  info0 : Word
  info1 : Word
deriving DecidableEq, Repr

/-- A run-phase fault on the port (R120, codes 1 to 4). -/
def FaultReport.port : FaultReport → PortReport
  | .decode w => ⟨1, false, w, 0#32⟩
  | .arithmetic w => ⟨2, false, w, 0#32⟩
  | .memory w addr => ⟨3, false, w, addr⟩
  | .fetch pc => ⟨4, false, pc, 0#32⟩

/-- The result of an executed instruction on the port (R120, codes 0, 2, 3). -/
def ExecutionResult.port : ExecutionResult → PortReport
  | .ok none => ⟨0, false, 0#32, 0#32⟩
  | .ok (some disp) => ⟨0, true, disp, 0#32⟩
  | .arithmeticFault w => (FaultReport.arithmetic w).port
  | .memoryFault w addr => (FaultReport.memory w addr).port

/-- The whole-instruction result on the port (R120, codes 0 to 3). -/
def UnitResult.port : UnitResult → PortReport
  | .decodeFault w => (FaultReport.decode w).port
  | .executed r => r.port

/-- A refused registration on the port (R120, code 5). -/
def duplicatePort (e : DuplicateEncoding) : PortReport := ⟨5, false, e.refused.matchBits, e.refused.mask⟩

end Sys2Proof.Machine
end

