-- ==== Sys2Proof/Safety.lean ====
section
/-! DEFINITION. The terms in which claims speak of the machine: what a legal state is, when a word is presented to the
unit, what an instruction wrote and what it left alone. -/

namespace Sys2Proof.Machine

/-! ### Legal states -/

/-- The word of data memory a byte belongs to starts here. -/
def wordBase (a : Nat) : Word := BitVec.ofNat 32 (a - a % 4)

/-- Every listed byte lies in a word `MEM_VALID` admits: memory exists nowhere else (R30, R36). -/
abbrev memInside (p : Params) (m : Memory) : Prop := ∀ c ∈ m, c.1 < 2 ^ 32 ∧ memValid p (wordBase c.1) = true

/-- No two descriptors of the table collide (R69). -/
abbrev collisionFree (t : List Descriptor) : Prop := t.Pairwise (fun a b => collides a b = false)

/-- A legal state: legal parameters (R6), a collision-free table (R69), registration over once the run phase has
begun (R15), register 0 holding 0 where it is hardwired (R19, R29), memory in canonical form and only where
`MEM_VALID` holds (R30), `pc` a multiple of 4 (R22). -/
structure State.Legal (s : State) : Prop where
  params : s.params.legal
  table : collisionFree s.table
  registered : s.phase = .run → s.pending = []
  reg0 : s.params.reg0 = .hardwiredZero → s.regs[(0 : Reg)] = 0#32
  memForm : Memory.wf s.mem
  memWhere : memInside s.params s.mem
  pcAligned : unsigned s.pc % 4 = 0

/-! ### What is presented to the unit -/

/-- REF hands the word `w` to the unit: the run is on, and `w` is the program word at `pc` (R44, R143). -/
structure State.Presents (s : State) (w : Word) : Prop where
  running : s.status = .running
  run : s.phase = .run
  word : ∃ k, unsigned s.pc = textBase + 4 * k ∧ s.prog[k]? = some w

/-- Every word that carries `matchBits` under `mask` decodes, with the default `ENC`, to `f` of it (R53, R54). -/
def ReadsAs (mask matchBits : Word) (f : Word → Instr) : Prop :=
  ∀ w : Word, w &&& mask = matchBits → decode w = some (f w)

/-! ### What an instruction changed -/

/-- A write to `r` lands: `r` is not a hardwired register 0 (R18, R19). -/
def State.TakesWrite (s : State) (r : Reg) : Prop := ¬ (s.params.reg0 = .hardwiredZero ∧ r = 0)

/-- `t` is `s` after `v` was written to `r` and, if anything else, other registers: `r` reads `v`, or still 0 if it
is a hardwired register 0 (R18, R19). -/
def Wrote (s t : State) (r : Reg) (v : Word) : Prop :=
  (s.TakesWrite r → t.readReg r = v) ∧ (¬ s.TakesWrite r → t.readReg r = 0#32)

/-- Every register not in `ws` reads as before. -/
def RegsKept (ws : List Reg) (s t : State) : Prop := ∀ r, r ∉ ws → t.readReg r = s.readReg r

/-- Every byte of memory reads as before. -/
def MemKept (s t : State) : Prop := ∀ a, Memory.readByte t.mem a = Memory.readByte s.mem a

/-- Every byte outside the word at `addr` reads as before. -/
def MemKeptOutside (addr : Word) (s t : State) : Prop :=
  ∀ a, a < unsigned addr ∨ unsigned addr + 4 ≤ a → Memory.readByte t.mem a = Memory.readByte s.mem a

/-- Everything that is neither register, memory nor `pc` is as before. -/
def HostKept (s t : State) : Prop :=
  t.params = s.params ∧ t.table = s.table ∧ t.phase = s.phase ∧ t.pending = s.pending ∧
    t.status = s.status ∧ t.prog = s.prog

/-- `i` completes in `s` with next state `t`, falls through to the next word, stores nothing, and writes no
register outside `ws`. -/
structure CompletesWriting (ws : List Reg) (i : Instr) (s t : State) : Prop where
  next : exec i s = .next t
  regs : RegsKept ws s t
  mem : MemKept s t
  host : HostKept s t
  pc : t.pc = s.pc + 4#32

/-- The run has stopped in a fault, which is no good end (R127). -/
def State.Failed (s : State) : Prop := ∃ f, s.status = .faulted f

end Sys2Proof.Machine
end

