-- ==== Sys2Proof/Certificates/Slice0/Obligations.lean ====
section
/-! DEFINITION. The statements for the provers. Each speaks of every state, so for every value of the parameters
`NREGS`, `REG0_MODE` and `MEM_VALID`, which State holds. Two clauses that return in many statements are the spec's own
decisions, not its source document's: the words an instruction is read from (`ReadsAs`: decisions D1 to D4, log 9) and
what becomes of `pc` (R113, decision D16, log 11). -/

open Sys2Proof Sys2Proof.Machine

/-! ### Register-register arithmetic -/

/-- R86. -/
def Obligations.GainAddsAndWraps : Prop :=
  ReadsAs 0xFC0007FF#32 0x00000001#32 (fun w => .gain (fcField w) (faField w) (fbField w)) ∧
  ∀ (rd rs rt : Reg) (s : State), ∃ t, CompletesWriting [rd] (.gain rd rs rt) s t ∧
    Wrote s t rd (s.readReg rs + s.readReg rt)

/-- R87. -/
def Obligations.LoseSubtractsAndWraps : Prop :=
  ReadsAs 0xFC0007FF#32 0x00000002#32 (fun w => .lose (fcField w) (faField w) (fbField w)) ∧
  ∀ (rd rs rt : Reg) (s : State), ∃ t, CompletesWriting [rd] (.lose rd rs rt) s t ∧
    Wrote s t rd (s.readReg rs - s.readReg rt)

/-- R88: the low word of the product, the same for both readings of the operands. -/
def Obligations.NosGivesLowProductWord : Prop :=
  ReadsAs 0xFC0007FF#32 0x00000009#32 (fun w => .nos (fcField w) (faField w) (fbField w)) ∧
  ∀ (rd rs rt : Reg) (s : State), ∃ t v, CompletesWriting [rd] (.nos rd rs rt) s t ∧ Wrote s t rd v ∧
    v = BitVec.ofInt 32 ((s.readReg rs).toInt * (s.readReg rt).toInt) ∧
    v = BitVec.ofNat 32 ((s.readReg rs).toNat * (s.readReg rt).toNat)

/-- R89: with a non-zero divisor it completes, rounded toward zero, and the one quotient that does not fit wraps (the
spec's decision D10, log 10); with a zero divisor it faults with nothing written. That the fault of an `exec` carries
`currentWord` is the model's reading (log 8); that this is the word presented is part of
`OnlySplitByZeroIsArithmeticFault`. -/
def Obligations.SplitDividesTowardZero : Prop :=
  ReadsAs 0xFC0007FF#32 0x0000000A#32 (fun w => .split (fcField w) (faField w) (fbField w)) ∧
  ∀ (rd rs rt : Reg) (s : State),
    (s.readReg rt ≠ 0#32 → ∃ t v, CompletesWriting [rd] (.split rd rs rt) s t ∧ Wrote s t rd v ∧
      v = BitVec.ofInt 32 (Int.tdiv (s.readReg rs).toInt (s.readReg rt).toInt) ∧
      (s.readReg rs = 0x80000000#32 → s.readReg rt = 0xFFFFFFFF#32 → v = 0x80000000#32)) ∧
    (s.readReg rt = 0#32 →
      exec (.split rd rs rt) s = .next { s with status := .faulted (.arithmetic s.currentWord) })

/-- R121: the fault carries the instruction word, nothing else changes, and nothing but
a `split` by zero raises it. -/
def Obligations.OnlySplitByZeroIsArithmeticFault : Prop :=
  (∀ (s : State) (w : Word) (rd rs rt : Reg), s.Presents w →
    decodeIn s.table s.params.nregs w = some (.split rd rs rt) → s.readReg rt = 0#32 →
    step s = .next { s with status := .faulted (.arithmetic w) }) ∧
  (∀ (i : Instr) (s t : State) (w : Word), s.status = .running → exec i s = .next t →
    t.status = .faulted (.arithmetic w) → ∃ rd rs rt, i = .split rd rs rt ∧ s.readReg rt = 0#32)

/-- R90: a shift left by one, bit 31 lost. -/
def Obligations.TurboDoubles : Prop :=
  ReadsAs 0xFC1F07FF#32 0x0000000F#32 (fun w => .turbo (fcField w) (faField w)) ∧
  ∀ (rd rs : Reg) (s : State), ∃ t, CompletesWriting [rd] (.turbo rd rs) s t ∧
    Wrote s t rd (s.readReg rs <<< 1)

/-- R91. -/
def Obligations.LupIncrements : Prop :=
  ReadsAs 0xFFFF07FF#32 0x0000000C#32 (fun w => .lup (fcField w)) ∧
  ∀ (rd : Reg) (s : State), ∃ t, CompletesWriting [rd] (.lup rd) s t ∧ Wrote s t rd (s.readReg rd + 1#32)

/-! ### Immediate arithmetic -/

/-- R94. -/
def Obligations.PutAddsImmediate : Prop :=
  ReadsAs 0xFC000000#32 0x0C000000#32 (fun w => .put (fbField w) (faField w) (sext16 (immField w))) ∧
  ∀ (rd rs : Reg) (simm : Word) (s : State), ∃ t, CompletesWriting [rd] (.put rd rs simm) s t ∧
    Wrote s t rd (s.readReg rs + simm)

/-- R95, with the words of its `op` that are illegal. -/
def Obligations.FuelLoadsImmediate : Prop :=
  ReadsAs 0xFFE00000#32 0x2C000000#32 (fun w => .fuel (fbField w) (sext16 (immField w))) ∧
  (∀ w : Word, opField w = 11 → faField w ≠ 0 → decode w = none) ∧
  ∀ (rd : Reg) (simm : Word) (s : State), ∃ t, CompletesWriting [rd] (.fuel rd simm) s t ∧ Wrote s t rd simm

/-- R96. -/
def Obligations.CoolSubtractsImmediate : Prop :=
  ReadsAs 0xFC000000#32 0x50000000#32 (fun w => .cool (fbField w) (faField w) (sext16 (immField w))) ∧
  ∀ (rd rs : Reg) (simm : Word) (s : State), ∃ t, CompletesWriting [rd] (.cool rd rs simm) s t ∧
    Wrote s t rd (s.readReg rs - simm)

/-- R97: strict signed bound on the wrapped sum `v`; register 2 is read after the write of `rd`. -/
def Obligations.HotCountsSumsOver200 : Prop :=
  ReadsAs 0xFC000000#32 0x4C000000#32 (fun w => .hot (fbField w) (faField w) (sext16 (immField w))) ∧
  ∀ (rd rs : Reg) (simm v : Word) (s : State), v = s.readReg rs + simm →
    (v.toInt ≤ 200 → ∃ t, CompletesWriting [rd] (.hot rd rs simm) s t ∧ Wrote s t rd v) ∧
    (200 < v.toInt → rd ≠ 2 → ∃ t, CompletesWriting [rd, 2] (.hot rd rs simm) s t ∧ Wrote s t rd v ∧
      t.readReg 2 = s.readReg 2 + 1#32) ∧
    (200 < v.toInt → rd = 2 → ∃ t, CompletesWriting [2] (.hot rd rs simm) s t ∧ t.readReg 2 = v + 1#32)

/-! ### Logic, compare, clamp, swap -/

/-- R99: bit by bit. -/
def Obligations.WeldAndsEachBit : Prop :=
  ReadsAs 0xFC0007FF#32 0x00000004#32 (fun w => .weld (fcField w) (faField w) (fbField w)) ∧
  ∀ (rd rs rt : Reg) (s : State), ∃ t v, CompletesWriting [rd] (.weld rd rs rt) s t ∧ Wrote s t rd v ∧
    ∀ i < 32, v.getLsbD i = ((s.readReg rs).getLsbD i && (s.readReg rt).getLsbD i)

/-- R100: bit by bit. -/
def Obligations.MergeOrsEachBit : Prop :=
  ReadsAs 0xFC0007FF#32 0x00000005#32 (fun w => .merge (fcField w) (faField w) (fbField w)) ∧
  ∀ (rd rs rt : Reg) (s : State), ∃ t v, CompletesWriting [rd] (.merge rd rs rt) s t ∧ Wrote s t rd v ∧
    ∀ i < 32, v.getLsbD i = ((s.readReg rs).getLsbD i || (s.readReg rt).getLsbD i)

/-- R101: a signed comparison, the result exactly 1 or 0. -/
def Obligations.VsSetsOnSignedLess : Prop :=
  ReadsAs 0xFC0007FF#32 0x00000006#32 (fun w => .vs (fcField w) (faField w) (fbField w)) ∧
  ∀ (rd rs rt : Reg) (s : State), ∃ t v, CompletesWriting [rd] (.vs rd rs rt) s t ∧ Wrote s t rd v ∧
    ((s.readReg rs).toInt < (s.readReg rt).toInt → v = 1#32) ∧
    ((s.readReg rt).toInt ≤ (s.readReg rs).toInt → v = 0#32)

/-- R102: the maximum of signed readings. -/
def Obligations.SkidClampsAtZero : Prop :=
  ReadsAs 0xFC1F07FF#32 0x00000010#32 (fun w => .skid (fcField w) (faField w)) ∧
  ∀ (rd rs : Reg) (s : State), ∃ t v, CompletesWriting [rd] (.skid rd rs) s t ∧ Wrote s t rd v ∧
    v.toInt = max (s.readReg rs).toInt 0

/-- R103: the values are exchanged; a second `pit` on the same pair restores them unless one of the pair is a
hardwired register 0. -/
def Obligations.PitSwapsTwoRegisters : Prop :=
  ReadsAs 0xFC1F07FF#32 0x00000011#32 (fun w => .pit (fcField w) (faField w)) ∧
  ∀ (rd rs : Reg) (s : State), ∃ t, CompletesWriting [rd, rs] (.pit rd rs) s t ∧
    Wrote s t rd (s.readReg rs) ∧ Wrote s t rs (s.readReg rd) ∧
    (s.TakesWrite rd → s.TakesWrite rs →
      ∃ u, CompletesWriting [rd, rs] (.pit rd rs) t u ∧ ∀ r, u.readReg r = s.readReg r)

/-! ### Load and store -/

/-- R105: at an accepted address the word becomes the data register, and no register and no other byte changes; at
a refused one the fault carries the address and nothing else changes. That the fault of an `exec` carries `currentWord`
as its word is the model's reading (log 8); the unit's own word is in `UnitGreStoresOrReports`. The canonical form of
memory is part of the invariant of `StepKeepsStatesLegal`. -/
def Obligations.GreStoresAtEffectiveAddress : Prop :=
  ReadsAs 0xFC000000#32 0x1C000000#32 (fun w => .gre (fbField w) (faField w) (sext16 (immField w))) ∧
  ∀ (rt rs : Reg) (simm a : Word) (s : State), Memory.wf s.mem → s.effectiveAddress rs simm = a →
    a = s.readReg rs + simm ∧
    (a.toNat % 4 = 0 → memValid s.params a = true →
      ∃ t, exec (.gre rt rs simm) s = .next t ∧ t.getWord a = some (s.readReg rt) ∧ MemKeptOutside a s t ∧
        RegsKept [] s t ∧ HostKept s t ∧ t.pc = s.pc + 4#32) ∧
    (a.toNat % 4 ≠ 0 ∨ memValid s.params a = false →
      exec (.gre rt rs simm) s = .next { s with status := .faulted (.memory s.currentWord a) })

/-- R106: at an accepted address the register gets the word read; at a refused one the fault carries the address and
nothing else changes. That the fault of an `exec` carries `currentWord` as its word is the model's reading (log 8); the
unit's own word is in `UnitDrLoadsOrReports`. -/
def Obligations.DrLoadsFromEffectiveAddress : Prop :=
  ReadsAs 0xFC000000#32 0x20000000#32 (fun w => .dr (fbField w) (faField w) (sext16 (immField w))) ∧
  ∀ (rd rs : Reg) (simm a : Word) (s : State), s.effectiveAddress rs simm = a →
    a = s.readReg rs + simm ∧
    (a.toNat % 4 = 0 → memValid s.params a = true →
      ∃ t v, CompletesWriting [rd] (.dr rd rs simm) s t ∧ s.getWord a = some v ∧ Wrote s t rd v) ∧
    (a.toNat % 4 ≠ 0 ∨ memValid s.params a = false →
      exec (.dr rd rs simm) s = .next { s with status := .faulted (.memory s.currentWord a) })

/-- R122: a misaligned or out-of-range access faults with the instruction word and the full address, changes
nothing else, and nothing but such a `gre` or `dr` raises it. -/
def Obligations.OnlyBadAddressIsMemoryFault : Prop :=
  (∀ (s : State) (w a : Word) (x rs : Reg) (simm : Word), s.Presents w →
    (decodeIn s.table s.params.nregs w = some (.gre x rs simm) ∨
      decodeIn s.table s.params.nregs w = some (.dr x rs simm)) →
    s.effectiveAddress rs simm = a → (a.toNat % 4 ≠ 0 ∨ memValid s.params a = false) →
    step s = .next { s with status := .faulted (.memory w a) }) ∧
  (∀ (i : Instr) (s t : State) (w a : Word), s.status = .running → exec i s = .next t →
    t.status = .faulted (.memory w a) →
    ∃ x rs simm, (i = .gre x rs simm ∨ i = .dr x rs simm) ∧ s.effectiveAddress rs simm = a ∧
      (a.toNat % 4 ≠ 0 ∨ memValid s.params a = false))

/-- R107: after a `gre` that completes, a `dr` that computes the same address in any later state with that memory
gives the stored word. -/
def Obligations.LoadReturnsStoredWord : Prop :=
  ∀ (rt rs rd ru : Reg) (i j : Word) (s t u : State), Memory.wf s.mem → s.status = .running →
    exec (.gre rt rs i) s = .next t → t.status = .running →
    u.mem = t.mem → u.params = t.params → u.effectiveAddress ru j = s.effectiveAddress rs i →
    ∃ x, CompletesWriting [rd] (.dr rd ru j) u x ∧ Wrote u x rd (s.readReg rt)

/-- R34: when the Memory Model refuses a store (and a load, R33), what a store makes of the words, and that no byte
outside the word changes. -/
def Obligations.MemoryModelKeepsItsContract : Prop :=
  ∀ (s : State) (a b v : Word), Memory.wf s.mem →
    (s.setWord a v = none ↔ a.toNat % 4 ≠ 0 ∨ memValid s.params a = false) ∧
    (s.getWord a = none ↔ a.toNat % 4 ≠ 0 ∨ memValid s.params a = false) ∧
    (∀ t, s.setWord a v = some t →
      t.getWord a = some v ∧ (b ≠ a → t.getWord b = s.getWord b) ∧ MemKeptOutside a s t ∧
        Memory.wf t.mem ∧ t.regs = s.regs ∧ t.pc = s.pc ∧ HostKept s t)

/-- With REF's `MEM_VALID` (R36), from the program's base up to the data window every access faults, so that no store
reaches the program (R43, the spec's decision D17). The word the fault carries is stated in
`OnlyBadAddressIsMemoryFault`. -/
def Obligations.ProgramAreaIsNotDataMemory : Prop :=
  ∀ (x rs : Reg) (simm a : Word) (s : State), s.params.windows = refWindows → s.effectiveAddress rs simm = a →
    textBase ≤ a.toNat → a.toNat < 0x10010000 →
    (∃ w, exec (.gre x rs simm) s = .next { s with status := .faulted (.memory w a) }) ∧
    (∃ w, exec (.dr x rs simm) s = .next { s with status := .faulted (.memory w a) })

/-! ### Branches -/

/-- R110 with REF's reaction (R113, decision D16): the next state is the old one but for `pc`. -/
def Obligations.CklapBranchesOnEqual : Prop :=
  ReadsAs 0xFC000000#32 0x34000000#32 (fun w => .cklap (fbField w) (faField w) (sext16 (immField w))) ∧
  ∀ (rd rs : Reg) (disp : Word) (s : State), exec (.cklap rd rs disp) s =
    .next { s with pc := if s.readReg rd = s.readReg rs then s.pc + 4#32 + 4#32 * disp else s.pc + 4#32 }

/-- R111 with REF's reaction (R113, decision D16): signed, strict, the first-named register on the left. -/
def Obligations.OtkBranchesOnSignedGreater : Prop :=
  ReadsAs 0xFC000000#32 0x38000000#32 (fun w => .otk (fbField w) (faField w) (sext16 (immField w))) ∧
  ∀ (rd rs : Reg) (disp : Word) (s : State), exec (.otk rd rs disp) s =
    .next { s with pc := if (s.readReg rs).slt (s.readReg rd) then s.pc + 4#32 + 4#32 * disp else s.pc + 4#32 }

/-- R112 with REF's reaction (R113, decision D16). -/
def Obligations.HzBranchesOnUnequal : Prop :=
  ReadsAs 0xFC000000#32 0x48000000#32 (fun w => .hz (fbField w) (faField w) (sext16 (immField w))) ∧
  ∀ (rd rs : Reg) (disp : Word) (s : State), exec (.hz rd rs disp) s =
    .next { s with pc := if s.readReg rd = s.readReg rs then s.pc + 4#32 else s.pc + 4#32 + 4#32 * disp }

/-- R63: which labels are encodable, the field stored, and that it takes a taken branch to the label (the
spec's decision D16). -/
def Obligations.BranchFieldReachesItsLabel : Prop :=
  ∀ a l : Nat,
    ((encodeLabel a l).isSome = true ↔ ((l : Int) - (a + 4)) % 4 = 0 ∧
      -32768 ≤ ((l : Int) - (a + 4)) / 4 ∧ ((l : Int) - (a + 4)) / 4 ≤ 32767) ∧
    ∀ v, encodeLabel a l = some v → (v.toNat : Int) = ((l : Int) - (a + 4)) / 4 % 65536 ∧
      branchTarget (BitVec.ofNat 32 a) (sext16 v) = BitVec.ofNat 32 l

/-- R115: only the three branches redirect `pc` (REF's, decision D16); any other instruction falls through, or faults
and changes nothing but the status. -/
def Obligations.OnlyBranchesRedirect : Prop :=
  ∀ (i : Instr) (s t : State), exec i s = .next t → i.operation ∉ [.cklap, .otk, .hz] →
    t.pc = s.pc + 4#32 ∨ ∃ f, t = { s with status := .faulted f }

/-! ### Encoding -/

/-- Words written out from 30_encoding.md R65 and the examples of the instruction rules. -/
def Obligations.SampleWordsDecode : Prop :=
  decode 0x00C72801#32 = some (.gain 5 6 7) ∧ decode 0x0060180F#32 = some (.turbo 3 3) ∧
  decode 0x4C0400C9#32 = some (.hot 4 0 201#32) ∧ decode 0x2C08FFFF#32 = some (.fuel 8 0xFFFFFFFF#32) ∧
  decode 0x1E090004#32 = some (.gre 9 16 4#32) ∧ decode 0x3949FFFD#32 = some (.otk 9 10 0xFFFFFFFD#32) ∧
  decode 0x00000000#32 = none ∧ decode 0x00C72841#32 = none

/-- Decoding the word of a well-formed instruction gives it back, for every `NREGS` (derived in the spec from R52,
R54: R65; D2, D3, D6). -/
def Obligations.DecodeOfEncodeIsIdentity : Prop :=
  ∀ (nregs : Nat) (i : Instr), i.wellFormed nregs = true → decodeIn enc nregs (encode i) = some i

/-- Each word means at most one well-formed instruction, whose encoding it is (R56, R65; D2, D3). -/
def Obligations.EncodeOfDecodeIsIdentity : Prop :=
  ∀ (w : Word) (i : Instr), decode w = some i → encode i = w ∧ i.wellFormed 32 = true

/-- R55: the illegal words are exactly those of its cases (a) to (d) (under the spec's synthetic `ENC`, D2, D3), and
such a word changes nothing but the status, which reports it (D9, D18). -/
def Obligations.IllegalWordsAreExactlyListed : Prop :=
  (∀ w : Word, decode w = none ↔
    (opField w = 0 ∧ fnField w ∉ ([1, 2, 4, 5, 6, 9, 10, 12, 15, 16, 17] : List (BitVec 6))) ∨
    (opField w = 0 ∧ fnField w ∈ ([1, 2, 4, 5, 6, 9, 10, 12, 15, 16, 17] : List (BitVec 6)) ∧
      (fzField w ≠ 0 ∨ (fnField w ∈ ([15, 16, 17] : List (BitVec 6)) ∧ fbField w ≠ 0) ∨
        (fnField w = 12 ∧ (faField w ≠ 0 ∨ fbField w ≠ 0)))) ∨
    (opField w = 11 ∧ faField w ≠ 0) ∨
    opField w ∉ ([0, 3, 7, 8, 11, 13, 14, 18, 19, 20] : List (BitVec 6))) ∧
  ∀ (s : State) (w : Word), s.Presents w → s.table = enc → s.params.nregs = 32 → decode w = none →
    step s = .next { s with status := .faulted (.decode w) }

/-- R66: for every pair of different rows the fixed bits differ somewhere both fix them, so no word matches two
(derived in the spec from R54). -/
def Obligations.NoWordMatchesTwoRows : Prop :=
  ∀ a ∈ enc, ∀ b ∈ enc, a ≠ b → (a.matchBits ^^^ b.matchBits) &&& a.mask &&& b.mask ≠ 0#32 ∧
    ∀ w, ¬ (a.matchesWord w = true ∧ b.matchesWord w = true)

/-- R50: the rule's three descriptions of `sext_16`, by cases, by shifts and by bits, and that every immediate or
displacement is made by it. -/
def Obligations.SignExtensionsAgree : Prop :=
  ∀ v : BitVec 16, sext16 v = (v.setWidth 32 <<< 16).sshiftRight 16 ∧
    (sext16 v).toInt = (if v.toNat < 0x8000 then (v.toNat : Int) else (v.toNat : Int) - 0x10000) ∧
    (∀ i < 16, (sext16 v).getLsbD i = v.getLsbD i) ∧
    (∀ i, 16 ≤ i → i < 32 → (sext16 v).getLsbD i = v.getLsbD 15) ∧
    (∀ (w x : Word) (i : Instr), decode w = some i → i.imm = some x → immField w = v → x = sext16 v)

/-- R74: a word naming a register at or above `NREGS` does not decode, what decodes names none, and with `NREGS = 32`
validation refuses no matched word (the spec's decision D6). -/
def Obligations.OutOfRangeRegistersAreRejected : Prop :=
  (∀ (t : List Descriptor) (nregs : Nat) (w : Word) (d : Descriptor), matchWord t w = some d →
    (∃ r ∈ (operandsOf d.semantic w).regs, nregs ≤ r.val) → decodeIn t nregs w = none) ∧
  (∀ (t : List Descriptor) (nregs : Nat) (w : Word) (i : Instr), decodeIn t nregs w = some i →
    ∀ r ∈ i.regs, r.val < nregs) ∧
  (∀ (t : List Descriptor) (w : Word) (d : Descriptor), matchWord t w = some d →
    decodeIn t 32 w = some (operandsOf d.semantic w))

/-- The encodable integers of R62, and that the field holds them modulo 2^16 (the spec's decision D25). -/
def Obligations.ImmediateFieldHoldsLowBits : Prop :=
  ∀ n : Int, ((encodeImm n).isSome = true ↔ -32768 ≤ n ∧ n ≤ 65535) ∧
    ∀ v, encodeImm n = some v → (v.toNat : Int) = n % 65536

/-- R58 (the spec's decision D5): a reader of a descriptor's template string gets its 32 characters back, and accepts a
string only where 32 template characters are left without the spaces. -/
def Obligations.TemplateStringReadsBack : Prop :=
  (∀ d : Descriptor, d.template.length = 32 → readTemplate d.templateChars = some d.template) ∧
  (∀ (cs : List Char) (t : List TemplateChar), readTemplate cs = some t →
    t.length = 32 ∧ cs.filter (· ≠ ' ') = t.map TemplateChar.char)

/-! ### Registration and population -/

/-- R69, with R68 (the spec's decision D8): the test on fixed bits holds exactly when some word matches both
descriptors, `register` refuses exactly on it and else adds, and so it keeps a table collision-free. -/
def Obligations.RegisterRefusesExactlyCollisions : Prop :=
  ∀ (t : List Descriptor) (d : Descriptor),
    ((∃ e ∈ t, ∃ w, d.matchesWord w = true ∧ e.matchesWord w = true) →
      register t d = .error ⟨d⟩ ∧ registerKeep t d = t) ∧
    ((¬ ∃ e ∈ t, ∃ w, d.matchesWord w = true ∧ e.matchesWord w = true) →
      register t d = .ok (t ++ [d]) ∧ registerKeep t d = t ++ [d]) ∧
    (∀ e : Descriptor, (d.matchBits ^^^ e.matchBits) &&& d.mask &&& e.mask = 0#32 ↔
      ∃ w, d.matchesWord w = true ∧ e.matchesWord w = true) ∧
    (collisionFree t → collisionFree (registerKeep t d)) ∧ collisionFree enc

/-- R70: whatever the order of registration, every row of `ENC` is registered and every word finds the same row; after
population no step changes the table. -/
def Obligations.PopulationOrderIsUnobservable : Prop :=
  (∀ ds : List Descriptor, ds.Perm enc →
    (populate [] ds).Perm enc ∧ ∀ w, matchWord (populate [] ds) w = matchWord enc w) ∧
  ∀ s t : State, s.phase = .run → step s = .next t → t.table = s.table ∧ t.phase = .run

/-- R135 (the spec's decision D20): registering step by step (the model's choice, log 5) ends in the run phase with
the populated table and nothing else changed. -/
def Obligations.PopulationEndsInRunPhase : Prop :=
  ∀ (s : State) (ds : List Descriptor), s.status = .running → s.phase = .population → s.pending = ds → ds ≠ [] →
    Host.Core.run core ds.length s =
      .next { s with table := populate s.table ds, pending := [], phase := .run }

/-! ### The step -/

/-- A step runs the instruction that the word at `pc` decodes to, under the table and `NREGS` of the state. -/
def Obligations.StepRunsDecodedInstruction : Prop :=
  (∀ (s : State) (w : Word) (i : Instr), s.Presents w → decodeIn s.table s.params.nregs w = some i →
    step s = exec i s) ∧
  (∀ (s : State) (w : Word) (i : Instr), s.Presents w → s.table = enc → s.params.nregs = 32 → decode w = some i →
    step s = exec i s)

/-- R119 (the spec's decision D9) with REF's reaction (R127, D18): an undecodable word changes nothing but the status,
which reports it. -/
def Obligations.UndecodableWordIsDecodeFault : Prop :=
  ∀ (s : State) (w : Word), s.Presents w → decodeIn s.table s.params.nregs w = none →
    step s = .next { s with status := .faulted (.decode w) }

/-- R139 (the spec's decision D19): the run ends normally exactly when `pc` is the address just past the program; any
other `pc` outside it is a `FetchFault`. -/
def Obligations.RunHaltsExactlyAtProgramEnd : Prop :=
  (∀ s : State, s.status = .running → s.phase = .run → s.pc.toNat = 0x00400000 + 4 * s.prog.length →
    step s = .next { s with status := .halted }) ∧
  (∀ s t : State, step s = .next t → t.status = .halted →
    s.status = .running ∧ s.phase = .run ∧ s.pc.toNat = 0x00400000 + 4 * s.prog.length) ∧
  (∀ s : State, s.status = .running → s.phase = .run →
    (s.pc.toNat < 0x00400000 ∨ 0x00400000 + 4 * s.prog.length < s.pc.toNat) →
    ∃ t, step s = .next t ∧ t.status = .faulted (.fetch s.pc))

/-- R133 (the spec's decision D19): `FetchFault` exactly for a misaligned `pc` or one outside the program other than
its end. -/
def Obligations.WildFetchIsFetchFault : Prop :=
  (∀ s : State, s.status = .running → s.phase = .run →
    (s.pc.toNat % 4 ≠ 0 ∨ s.pc.toNat < 0x00400000 ∨ 0x00400000 + 4 * s.prog.length < s.pc.toNat) →
    step s = .next { s with status := .faulted (.fetch s.pc) }) ∧
  (∀ (s t : State) (p : Word), step s = .next t → t.status = .faulted (.fetch p) →
    p = s.pc ∧ (s.pc.toNat % 4 ≠ 0 ∨ s.pc.toNat < 0x00400000 ∨ 0x00400000 + 4 * s.prog.length < s.pc.toNat))

/-- R128, R143 (the spec's decision D18; that the missing step is an outcome `fault` is the model's, log 7): a stopped
run has no further step, and only a stopped run has none. -/
def Obligations.StoppedRunNeverResumes : Prop :=
  (∀ s : State, s.status = .halted → step s = .fault .runHalted) ∧
  (∀ (s : State) (f : FaultReport), s.status = .faulted f → step s = .fault .runFaulted) ∧
  (∀ s : State, s.status = .running → ∃ t, step s = .next t)

/-! ### Whole-machine rules -/

/-- R127 (the spec's decision D18): a step that ends in a fault has changed nothing but the status, and no further
step exists. -/
def Obligations.FaultChangesOnlyTheStatus : Prop :=
  ∀ (s t : State) (f : FaultReport), step s = .next t → t.status = .faulted f →
    t = { s with status := .faulted f } ∧ step t = .fault .runFaulted

/-- R78: `exec` always answers a next state, the 17 instructions other than `split`, `gre`, `dr` never fault, `split`
can only raise `ArithmeticFault` and `gre`, `dr` only `MemoryFault`. -/
def Obligations.SeventeenInstructionsNeverFault : Prop :=
  (∀ (i : Instr) (s : State), ∃ t, exec i s = .next t) ∧
  (∀ (i : Instr) (s t : State), exec i s = .next t → i.operation ∉ [.split, .gre, .dr] → t.status = s.status) ∧
  (∀ (i : Instr) (s t : State) (f : FaultReport), s.status = .running → exec i s = .next t → t.status = .faulted f →
    (i.operation = .split ∧ ∃ w, f = .arithmetic w) ∨ (i.operation ∈ [.gre, .dr] ∧ ∃ w a, f = .memory w a))

/-- R14, R15, R27: no instruction changes the table, the phase, the program or the parameters. -/
def Obligations.NoInstructionChangesTableOrProgram : Prop :=
  ∀ (i : Instr) (s t : State), exec i s = .next t →
    t.table = s.table ∧ t.phase = s.phase ∧ t.pending = s.pending ∧ t.prog = s.prog ∧ t.params = s.params

/-- R39: only `gre` changes memory, and only the one aligned word at its effective address. -/
def Obligations.OnlyGreChangesMemory : Prop :=
  (∀ (i : Instr) (s t : State), exec i s = .next t → i.operation ≠ .gre → t.mem = s.mem) ∧
  (∀ (rt rs : Reg) (simm a : Word) (s t : State), s.effectiveAddress rs simm = a →
    exec (.gre rt rs simm) s = .next t → MemKeptOutside a s t ∧ (a.toNat % 4 ≠ 0 → MemKept s t))

/-- R82: an instruction's effect depends on registers, memory and parameters alone, and so do the distance `pc` moves
and whether it faults: two states that agree on those, whatever else they hold, agree on them afterwards. On the same
word the unit's result is the same. -/
def Obligations.ExecutionReadsOnlyItsAdapters : Prop :=
  ∀ (i : Instr) (s u : State), s.params = u.params → s.regs = u.regs → s.mem = u.mem →
    (∀ w, (execute i w s).result = (execute i w u).result) ∧ ∃ t v, exec i s = .next t ∧ exec i u = .next v ∧ t.regs = v.regs ∧ t.mem = v.mem ∧ t.pc - s.pc = v.pc - u.pc ∧
      (s.status = .running → u.status = .running → (t.status = .running ↔ v.status = .running))

/-- Every step keeps a legal state legal: memory canonical and only where `MEM_VALID` holds, a hardwired register 0
holding 0, `pc` a multiple of 4, the table collision-free, the parameters legal. -/
def Obligations.StepKeepsStatesLegal : Prop :=
  ∀ s t : State, s.Legal → step s = .next t → t.Legal

/-- The state after reset, with the launch inputs the model chose for it (logs 1, 2, 3, 6), is legal. -/
def Obligations.ResetIsLegal : Prop := State.reset.Legal

/-- The values the spec gives for reset (R29, R135, R137; its decisions D16, D20). -/
def Obligations.ResetStartsAtTextBase : Prop :=
  State.reset.table = [] ∧ State.reset.phase = .population ∧ State.reset.pc = 0x00400000#32 ∧
    State.reset.status = .running

/-! ### Register File, fault port -/

/-- R18, with R19: what a write of register `r` does to every register, under both values of `REG0_MODE`. -/
def Obligations.RegisterFileKeepsItsContract : Prop :=
  ∀ (s : State) (r x : Reg) (v : Word),
    (x ≠ r → (s.writeReg r v).readReg x = s.readReg x) ∧
    (s.params.reg0 = .ordinary → (s.writeReg r v).readReg r = v) ∧
    (r ≠ 0 → (s.writeReg r v).readReg r = v) ∧
    (s.params.reg0 = .hardwiredZero → s.readReg 0 = 0#32 ∧ s.writeReg 0 v = s)

/-- R120 (the spec's decision D22): the codes and info words of every row; a port report names one fault only, and
never codes 6 and 7. -/
def Obligations.FaultPortFollowsItsTable : Prop :=
  ∀ (w a disp p : Word) (d : Descriptor),
    (ExecutionResult.ok none).port = ⟨0, false, 0#32, 0#32⟩ ∧
    (ExecutionResult.ok (some disp)).port = ⟨0, true, disp, 0#32⟩ ∧
    (UnitResult.decodeFault w).port = ⟨1, false, w, 0#32⟩ ∧
    (FaultReport.decode w).port = ⟨1, false, w, 0#32⟩ ∧
    (ExecutionResult.arithmeticFault w).port = ⟨2, false, w, 0#32⟩ ∧
    (ExecutionResult.memoryFault w a).port = ⟨3, false, w, a⟩ ∧
    (FaultReport.fetch p).port = ⟨4, false, p, 0#32⟩ ∧
    duplicatePort ⟨d⟩ = ⟨5, false, d.matchBits, d.mask⟩ ∧
    ∀ f g : FaultReport, (f.port = g.port → f = g) ∧ f.port.kind ∈ ([1, 2, 3, 4] : List (BitVec 3))

/-! ### The unit without REF -/

/-- R77: the result of an executed instruction is one of the four, each with the instructions and the condition that
give it and with the instruction word; a fault has written nothing; what an instruction wrote in the unit is what its
step leaves; and the result of a whole instruction is one of the four or `DecodeFault`. -/
def Obligations.UnitReturnsListedResults : Prop :=
  ∀ (i : Instr) (w : Word) (s : State) (o : UnitOutcome), execute i w s = o →
    (o.result = .ok none ∨ (∃ d, o.result = .ok (some d)) ∨ o.result = .arithmeticFault w ∨
      ∃ a, o.result = .memoryFault w a) ∧
    (∀ d, o.result = .ok (some d) ↔ ∃ rd rs, (i = .cklap rd rs d ∧ s.readReg rd = s.readReg rs) ∨
      (i = .otk rd rs d ∧ (s.readReg rs).toInt < (s.readReg rd).toInt) ∨
      (i = .hz rd rs d ∧ s.readReg rd ≠ s.readReg rs)) ∧
    (o.result = .arithmeticFault w ↔ ∃ rd rs rt, i = .split rd rs rt ∧ s.readReg rt = 0#32) ∧
    (∀ a, o.result = .memoryFault w a ↔ ∃ x rs simm, (i = .gre x rs simm ∨ i = .dr x rs simm) ∧
      s.effectiveAddress rs simm = a ∧ (a.toNat % 4 ≠ 0 ∨ memValid s.params a = false)) ∧
    ((∀ b, o.result ≠ .ok b) → o.state = s) ∧
    (∀ t, exec i s = .next t → t.regs = o.state.regs ∧ t.mem = o.state.mem) ∧
    (decodeIn s.table s.params.nregs w = some i → unitStep w s = (o.state, .executed o.result)) ∧
    (decodeIn s.table s.params.nregs w = none → unitStep w s = (s, .decodeFault w))

/-- R108 (that the operand is the sign-extended field is the spec's decision D15): a branch whose condition holds
signals its displacement as it is, also a displacement of 0, else it signals nothing; either way it writes nothing. -/
def Obligations.BranchSignalCarriesDisplacement : Prop :=
  ∀ (rd rs : Reg) (disp w : Word) (s : State),
    execute (.cklap rd rs disp) w s =
      ⟨s, .ok (if s.readReg rd = s.readReg rs then some disp else none)⟩ ∧
    execute (.otk rd rs disp) w s =
      ⟨s, .ok (if (s.readReg rs).slt (s.readReg rd) then some disp else none)⟩ ∧
    execute (.hz rd rs disp) w s =
      ⟨s, .ok (if s.readReg rd = s.readReg rs then none else some disp)⟩

/-- R105, without REF: what `gre` makes of registers and memory, and the result with the instruction word. -/
def Obligations.UnitGreStoresOrReports : Prop :=
  ReadsAs 0xFC000000#32 0x1C000000#32 (fun w => .gre (fbField w) (faField w) (sext16 (immField w))) ∧
  ∀ (rt rs : Reg) (simm a w : Word) (s : State), Memory.wf s.mem → s.effectiveAddress rs simm = a →
    a = s.readReg rs + simm ∧
    (a.toNat % 4 = 0 → memValid s.params a = true →
      ∃ t, execute (.gre rt rs simm) w s = ⟨t, .ok none⟩ ∧ t.getWord a = some (s.readReg rt) ∧
        MemKeptOutside a s t ∧ t.regs = s.regs ∧ HostKept s t ∧ t.pc = s.pc) ∧
    (a.toNat % 4 ≠ 0 ∨ memValid s.params a = false →
      execute (.gre rt rs simm) w s = ⟨s, .memoryFault w a⟩)

/-- R106, without REF: what `dr` makes of registers and memory, and the result with the instruction word. -/
def Obligations.UnitDrLoadsOrReports : Prop :=
  ReadsAs 0xFC000000#32 0x20000000#32 (fun w => .dr (fbField w) (faField w) (sext16 (immField w))) ∧
  ∀ (rd rs : Reg) (simm a w : Word) (s : State), s.effectiveAddress rs simm = a →
    a = s.readReg rs + simm ∧
    (a.toNat % 4 = 0 → memValid s.params a = true →
      ∃ t v, execute (.dr rd rs simm) w s = ⟨t, .ok none⟩ ∧ s.getWord a = some v ∧ Wrote s t rd v ∧
        RegsKept [rd] s t ∧ t.mem = s.mem ∧ HostKept s t ∧ t.pc = s.pc) ∧
    (a.toNat % 4 ≠ 0 ∨ memValid s.params a = false →
      execute (.dr rd rs simm) w s = ⟨s, .memoryFault w a⟩)

/-- R81, R113, R143 (REF is the spec's decision D16, D18): when a word is presented, the step is REF's reaction to what
`unit_step` makes of the word, and what that reaction is for each result. -/
def Obligations.StepReactsToUnitStep : Prop :=
  (∀ (s : State) (w : Word), s.Presents w → step s = .next ((unitStep w s).1.reactTo (unitStep w s).2)) ∧
  ∀ (s : State) (w a disp : Word),
    s.reactTo (.executed (.ok none)) = { s with pc := s.pc + 4#32 } ∧
    s.reactTo (.executed (.ok (some disp))) = { s with pc := s.pc + 4#32 + 4#32 * disp } ∧
    s.reactTo (.executed (.arithmeticFault w)) = { s with status := .faulted (.arithmetic w) } ∧
    s.reactTo (.executed (.memoryFault w a)) = { s with status := .faulted (.memory w a) } ∧
    s.reactTo (.decodeFault w) = { s with status := .faulted (.decode w) }
end

