-- ==== Sys2Proof/Laws/Fields.lean ====
section
/-! SUPPORT. Fields of encoded words, sign extension, and the fixed bits of the default `ENC`. -/

namespace Sys2Proof

/-! ### Sign extension (R50) -/

/-- The rule's first form is the library's sign extension. -/
theorem sext16_eq_signExtend (v : BitVec 16) : sext16 v = v.signExtend 32 := by
  have hv := v.isLt
  unfold sext16 BitVec.signExtend wrap32
  rw [BitVec.toInt_eq_toNat_cond]
  split <;> split <;> first | rfl | omega

/-- What `sext_16` gives lies in -32768 .. 32767. -/
theorem sext16_fits (v : BitVec 16) : fits16 (sext16 v) := by
  rw [sext16_eq_signExtend]
  have h1 := BitVec.toInt_lt (x := v)
  have h2 := BitVec.le_toInt (x := v)
  have h3 : (v.signExtend 32).toInt = v.toInt := BitVec.toInt_signExtend_of_le (by omega)
  constructor <;> simp only [signed, h3] <;> omega

/-- A value in -32768 .. 32767 comes back from its low 16 bits. -/
theorem sext16_low {v : Word} (h : fits16 v) : sext16 (v.setWidth 16) = v := by
  rw [sext16_eq_signExtend]
  apply BitVec.eq_of_toInt_eq
  rw [BitVec.toInt_signExtend_of_le (by omega), BitVec.toInt_setWidth]
  obtain ⟨h1, h2⟩ := h
  have hv := v.isLt
  simp only [signed, BitVec.toInt_eq_toNat_cond] at h1 h2 ⊢
  rw [Int.bmod_def]
  split <;> split <;> omega

/-! ### Fields of placed operands (R52, R65) -/

theorem extract_placeReg_21 (r : Reg) :
    (placeReg r 21).extractLsb' 21 5 = BitVec.ofFin (w := 5) r ∧ (placeReg r 21).extractLsb' 16 5 = 0#5 ∧
    (placeReg r 21).extractLsb' 11 5 = 0#5 ∧ (placeReg r 21).extractLsb' 0 16 = 0#16 := by
  revert r; decide

theorem extract_placeReg_16 (r : Reg) :
    (placeReg r 16).extractLsb' 21 5 = 0#5 ∧ (placeReg r 16).extractLsb' 16 5 = BitVec.ofFin (w := 5) r ∧
    (placeReg r 16).extractLsb' 11 5 = 0#5 ∧ (placeReg r 16).extractLsb' 0 16 = 0#16 := by
  revert r; decide

theorem extract_placeReg_11 (r : Reg) :
    (placeReg r 11).extractLsb' 21 5 = 0#5 ∧ (placeReg r 11).extractLsb' 16 5 = 0#5 ∧
    (placeReg r 11).extractLsb' 11 5 = BitVec.ofFin (w := 5) r := by
  revert r; decide

theorem extract_placeImm (v : Word) :
    (placeImm v).extractLsb' 21 5 = 0#5 ∧ (placeImm v).extractLsb' 16 5 = 0#5 ∧
    (placeImm v).extractLsb' 0 16 = v.setWidth 16 := by
  unfold placeImm
  refine ⟨?_, ?_, ?_⟩
  · have h : (0xFFFF#32).extractLsb' 21 5 = 0#5 := by decide
    simp [BitVec.extractLsb'_and, h]
  · have h : (0xFFFF#32).extractLsb' 16 5 = 0#5 := by decide
    simp [BitVec.extractLsb'_and, h]
  · have h : (0xFFFF#32).extractLsb' 0 16 = BitVec.allOnes 16 := by decide
    rw [BitVec.extractLsb'_and, h, BitVec.and_allOnes]
    rfl

/-- Nothing is fixed to 1 in a register field (R54). -/
theorem extract_matchOf (o : Operation) :
    (matchOf o).extractLsb' 21 5 = 0#5 ∧ (matchOf o).extractLsb' 16 5 = 0#5 ∧
    (matchOf o).extractLsb' 11 5 = 0#5 := by
  cases o <;> decide

/-- The operations that have an immediate field (R51). -/
def Operation.hasImm : Operation → Bool
  | .put | .gre | .dr | .fuel | .cklap | .otk | .hz | .hot | .cool => true
  | .gain | .lose | .weld | .merge | .vs | .nos | .split | .lup | .turbo | .skid | .pit => false

/-- Nothing is fixed to 1 in an immediate field (R54). -/
theorem extract_matchOf_imm (o : Operation) (h : o.hasImm = true) : (matchOf o).extractLsb' 0 16 = 0#16 := by
  cases o <;> first | contradiction | decide

/-! ### The operand fields of an encoded word (R52, R65) -/

section Words
variable (o : Operation) (fa fb fc : Reg) (v : Word)

/-- The three register fields of an R_FORMAT word. -/
theorem fields_rWord :
    faField (matchOf o ||| (placeReg fa 21 ||| placeReg fb 16 ||| placeReg fc 11)) = fa ∧
    fbField (matchOf o ||| (placeReg fa 21 ||| placeReg fb 16 ||| placeReg fc 11)) = fb ∧
    fcField (matchOf o ||| (placeReg fa 21 ||| placeReg fb 16 ||| placeReg fc 11)) = fc := by
  refine ⟨?_, ?_, ?_⟩ <;>
    simp [faField, fbField, fcField, BitVec.extractLsb'_or, extract_matchOf, extract_placeReg_21,
      extract_placeReg_16, extract_placeReg_11]

/-- The register and immediate fields of an I_FORMAT or I_BRANCH_FORMAT word. -/
theorem fields_iWord (h : o.hasImm = true) :
    faField (matchOf o ||| (placeReg fa 21 ||| placeReg fb 16 ||| placeImm v)) = fa ∧
    fbField (matchOf o ||| (placeReg fa 21 ||| placeReg fb 16 ||| placeImm v)) = fb ∧
    immField (matchOf o ||| (placeReg fa 21 ||| placeReg fb 16 ||| placeImm v)) = v.setWidth 16 := by
  refine ⟨?_, ?_, ?_⟩ <;>
    simp only [faField, fbField, immField, BitVec.extractLsb'_or, extract_matchOf, extract_placeReg_21,
      extract_placeReg_16, extract_placeImm, extract_matchOf_imm o h, BitVec.or_zero, BitVec.zero_or]

end Words

theorem placeReg_zero (lo : Nat) : placeReg 0 lo = 0#32 := by
  simp [placeReg]

end Sys2Proof
end

