-- ==== Sys2Proof/Laws/PerInstr.lean ====
section
/-! SUPPORT. Laws proved instruction by instruction. OperandFields: the operands read from an instruction's own word
are its operands (30_encoding.md R52, R65). -/

namespace Sys2Proof.Laws.OperandFields

/-- Reading the operand fields of the encoded word gives the instruction back, if its immediate fits. -/
def Statement (i : Instr) : Prop := i.immFits = true → operandsOf i.operation (encode i) = i

theorem immFits_some {i : Instr} {v : Word} (h : i.immFits = true) (hv : i.imm = some v) : fits16 v := by
  simpa [Instr.immFits, hv] using h

theorem gain (rd rs rt : Reg) : Statement (.gain rd rs rt) := fun _ => by
  obtain ⟨ha, hb, hc⟩ := fields_rWord .gain rs rt rd
  simp only [encode, placed, operandsOf, Instr.operation, ha, hb, hc]

theorem lose (rd rs rt : Reg) : Statement (.lose rd rs rt) := fun _ => by
  obtain ⟨ha, hb, hc⟩ := fields_rWord .lose rs rt rd
  simp only [encode, placed, operandsOf, Instr.operation, ha, hb, hc]

theorem put (rd rs : Reg) (v : Word) : Statement (.put rd rs v) := fun h => by
  obtain ⟨ha, hb, hi⟩ := fields_iWord .put rs rd v rfl
  simp only [encode, placed, operandsOf, Instr.operation, ha, hb, hi, sext16_low (immFits_some h rfl)]

theorem weld (rd rs rt : Reg) : Statement (.weld rd rs rt) := fun _ => by
  obtain ⟨ha, hb, hc⟩ := fields_rWord .weld rs rt rd
  simp only [encode, placed, operandsOf, Instr.operation, ha, hb, hc]

theorem merge (rd rs rt : Reg) : Statement (.merge rd rs rt) := fun _ => by
  obtain ⟨ha, hb, hc⟩ := fields_rWord .merge rs rt rd
  simp only [encode, placed, operandsOf, Instr.operation, ha, hb, hc]

theorem vs (rd rs rt : Reg) : Statement (.vs rd rs rt) := fun _ => by
  obtain ⟨ha, hb, hc⟩ := fields_rWord .vs rs rt rd
  simp only [encode, placed, operandsOf, Instr.operation, ha, hb, hc]

theorem gre (rt rs : Reg) (v : Word) : Statement (.gre rt rs v) := fun h => by
  obtain ⟨ha, hb, hi⟩ := fields_iWord .gre rs rt v rfl
  simp only [encode, placed, operandsOf, Instr.operation, ha, hb, hi, sext16_low (immFits_some h rfl)]

theorem dr (rd rs : Reg) (v : Word) : Statement (.dr rd rs v) := fun h => by
  obtain ⟨ha, hb, hi⟩ := fields_iWord .dr rs rd v rfl
  simp only [encode, placed, operandsOf, Instr.operation, ha, hb, hi, sext16_low (immFits_some h rfl)]

theorem nos (rd rs rt : Reg) : Statement (.nos rd rs rt) := fun _ => by
  obtain ⟨ha, hb, hc⟩ := fields_rWord .nos rs rt rd
  simp only [encode, placed, operandsOf, Instr.operation, ha, hb, hc]

theorem split (rd rs rt : Reg) : Statement (.split rd rs rt) := fun _ => by
  obtain ⟨ha, hb, hc⟩ := fields_rWord .split rs rt rd
  simp only [encode, placed, operandsOf, Instr.operation, ha, hb, hc]

theorem fuel (rd : Reg) (v : Word) : Statement (.fuel rd v) := fun h => by
  obtain ⟨-, hb, hi⟩ := fields_iWord .fuel 0 rd v rfl
  simp only [placeReg_zero, BitVec.zero_or] at hb hi
  simp only [encode, placed, operandsOf, Instr.operation, hb, hi, sext16_low (immFits_some h rfl)]

theorem lup (rd : Reg) : Statement (.lup rd) := fun _ => by
  obtain ⟨-, -, hc⟩ := fields_rWord .lup 0 0 rd
  simp only [placeReg_zero, BitVec.zero_or] at hc
  simp only [encode, placed, operandsOf, Instr.operation, hc]

theorem cklap (rd rs : Reg) (v : Word) : Statement (.cklap rd rs v) := fun h => by
  obtain ⟨ha, hb, hi⟩ := fields_iWord .cklap rs rd v rfl
  simp only [encode, placed, operandsOf, Instr.operation, ha, hb, hi, sext16_low (immFits_some h rfl)]

theorem otk (rd rs : Reg) (v : Word) : Statement (.otk rd rs v) := fun h => by
  obtain ⟨ha, hb, hi⟩ := fields_iWord .otk rs rd v rfl
  simp only [encode, placed, operandsOf, Instr.operation, ha, hb, hi, sext16_low (immFits_some h rfl)]

theorem turbo (rd rs : Reg) : Statement (.turbo rd rs) := fun _ => by
  obtain ⟨ha, -, hc⟩ := fields_rWord .turbo rs 0 rd
  simp only [placeReg_zero, BitVec.or_zero] at ha hc
  simp only [encode, placed, operandsOf, Instr.operation, ha, hc]

theorem skid (rd rs : Reg) : Statement (.skid rd rs) := fun _ => by
  obtain ⟨ha, -, hc⟩ := fields_rWord .skid rs 0 rd
  simp only [placeReg_zero, BitVec.or_zero] at ha hc
  simp only [encode, placed, operandsOf, Instr.operation, ha, hc]

theorem pit (rd rs : Reg) : Statement (.pit rd rs) := fun _ => by
  obtain ⟨ha, -, hc⟩ := fields_rWord .pit rs 0 rd
  simp only [placeReg_zero, BitVec.or_zero] at ha hc
  simp only [encode, placed, operandsOf, Instr.operation, ha, hc]

theorem hz (rd rs : Reg) (v : Word) : Statement (.hz rd rs v) := fun h => by
  obtain ⟨ha, hb, hi⟩ := fields_iWord .hz rs rd v rfl
  simp only [encode, placed, operandsOf, Instr.operation, ha, hb, hi, sext16_low (immFits_some h rfl)]

theorem hot (rd rs : Reg) (v : Word) : Statement (.hot rd rs v) := fun h => by
  obtain ⟨ha, hb, hi⟩ := fields_iWord .hot rs rd v rfl
  simp only [encode, placed, operandsOf, Instr.operation, ha, hb, hi, sext16_low (immFits_some h rfl)]

theorem cool (rd rs : Reg) (v : Word) : Statement (.cool rd rs v) := fun h => by
  obtain ⟨ha, hb, hi⟩ := fields_iWord .cool rs rd v rfl
  simp only [encode, placed, operandsOf, Instr.operation, ha, hb, hi, sext16_low (immFits_some h rfl)]

end Sys2Proof.Laws.OperandFields
end

