-- ==== Sys2Proof/Laws/Decode.lean ====
section
/-! SUPPORT. Matching against a collision-free table, the default table, and decoding with it. -/

namespace Sys2Proof

open Machine (collisionFree)

theorem collides_comm (a b : Descriptor) : collides a b = collides b a := by
  unfold collides
  rw [BitVec.xor_comm, BitVec.and_assoc, BitVec.and_comm a.mask, ← BitVec.and_assoc]

/-- A word that matches two descriptors makes them collide (R69). -/
theorem collides_of_matches {a b : Descriptor} {w : Word} (ha : a.matchesWord w = true)
    (hb : b.matchesWord w = true) : collides a b = true := by
  simp only [Descriptor.matchesWord, beq_iff_eq] at ha hb
  simp only [collides, beq_iff_eq, ← ha, ← hb]
  apply BitVec.eq_of_getLsbD_eq
  intro i hi
  simp only [BitVec.getLsbD_and, BitVec.getLsbD_xor, BitVec.getLsbD_zero]
  cases w.getLsbD i <;> cases a.mask.getLsbD i <;> cases b.mask.getLsbD i <;> rfl

theorem eq_of_mem_of_matches {t : List Descriptor} (h : collisionFree t) {a b : Descriptor} {w : Word}
    (ha : a ∈ t) (hb : b ∈ t) (wa : a.matchesWord w = true) (wb : b.matchesWord w = true) : a = b := by
  induction t with
  | nil => simp at ha
  | cons x t ih =>
    obtain ⟨hx, ht⟩ := List.pairwise_cons.1 h
    rcases List.mem_cons.1 ha with ea | ha' <;> rcases List.mem_cons.1 hb with eb | hb'
    · rw [ea, eb]
    · simpa [← ea, collides_of_matches wa wb] using hx b hb'
    · simpa [← eb, collides_of_matches wb wa] using hx a ha'
    · exact ih ht ha' hb'

/-- In a collision-free table the descriptor a word matches is the one `match` returns, wherever it stands
(R71). -/
theorem matchWord_eq_some_iff {t : List Descriptor} (h : collisionFree t) {d : Descriptor} {w : Word} :
    matchWord t w = some d ↔ d ∈ t ∧ d.matchesWord w = true := by
  constructor
  · intro hm
    unfold matchWord at hm
    exact ⟨List.mem_of_find?_eq_some hm, by simpa using List.find?_some hm⟩
  · rintro ⟨hd, hw⟩
    unfold matchWord
    cases hm : t.find? (fun d => d.matchesWord w) with
    | none => exact absurd hw (by simpa using List.find?_eq_none.1 hm d hd)
    | some e =>
      have he : e.matchesWord w = true := by simpa using List.find?_some hm
      rw [eq_of_mem_of_matches h (List.mem_of_find?_eq_some hm) hd he hw]

/-- The default table is collision-free. -/
theorem enc_collisionFree : collisionFree enc := by decide

/-- With `NREGS = 32` validation never refuses (R74). -/
theorem regsValid_32 (i : Instr) : i.regsValid 32 = true := by
  cases i <;> simp [Instr.regsValid, Instr.regs]

/-- A word that matches a row of the default table decodes to that row's operation. -/
theorem decode_of_row {d : Descriptor} {w : Word} (hd : d ∈ enc) (hw : d.matchesWord w = true) :
    decode w = some (operandsOf d.semantic w) := by
  have hm := (matchWord_eq_some_iff enc_collisionFree).2 ⟨hd, hw⟩
  simp [decode, decodeIn, hm, regsValid_32]

/-- How a row of the default table reads every word that matches it. -/
theorem readsAs_of_row {mask matchBits : Word} {f : Word → Instr} (o : Operation)
    (h : ∃ d ∈ enc, d.mask = mask ∧ d.matchBits = matchBits ∧ d.semantic = o) (hf : ∀ w, operandsOf o w = f w) :
    Machine.ReadsAs mask matchBits f := by
  intro w hw
  obtain ⟨d, hd, rfl, rfl, rfl⟩ := h
  rw [decode_of_row hd (by simpa [Descriptor.matchesWord] using hw), hf]

/-- Every operation has a row in the default table, with the `match` the encoder uses. -/
theorem exists_row (o : Operation) : ∃ d ∈ enc, d.semantic = o ∧ d.matchBits = matchOf o := by
  cases o <;> decide

end Sys2Proof
end

