-- ==== Sys2Proof/Laws/State.lean ====
section
/-! SUPPORT. The small lemmas of the state: one per field and update, and the Register File contract. -/

namespace Sys2Proof.Machine

section WriteReg
variable (s : State) (r : Reg) (v : Word)

@[simp] theorem writeReg_params : (s.writeReg r v).params = s.params := by unfold State.writeReg; split <;> rfl
@[simp] theorem writeReg_table : (s.writeReg r v).table = s.table := by unfold State.writeReg; split <;> rfl
@[simp] theorem writeReg_phase : (s.writeReg r v).phase = s.phase := by unfold State.writeReg; split <;> rfl
@[simp] theorem writeReg_pending : (s.writeReg r v).pending = s.pending := by unfold State.writeReg; split <;> rfl
@[simp] theorem writeReg_mem : (s.writeReg r v).mem = s.mem := by unfold State.writeReg; split <;> rfl
@[simp] theorem writeReg_pc : (s.writeReg r v).pc = s.pc := by unfold State.writeReg; split <;> rfl
@[simp] theorem writeReg_status : (s.writeReg r v).status = s.status := by unfold State.writeReg; split <;> rfl
@[simp] theorem writeReg_prog : (s.writeReg r v).prog = s.prog := by unfold State.writeReg; split <;> rfl
end WriteReg

section React
variable (s : State) (r : ExecutionResult) (b : Option Word) (f : FaultReport)

@[simp] theorem takeFault_params : (s.takeFault f).params = s.params := rfl
@[simp] theorem takeFault_table : (s.takeFault f).table = s.table := rfl
@[simp] theorem takeFault_phase : (s.takeFault f).phase = s.phase := rfl
@[simp] theorem takeFault_pending : (s.takeFault f).pending = s.pending := rfl
@[simp] theorem takeFault_regs : (s.takeFault f).regs = s.regs := rfl
@[simp] theorem takeFault_mem : (s.takeFault f).mem = s.mem := rfl
@[simp] theorem takeFault_pc : (s.takeFault f).pc = s.pc := rfl
@[simp] theorem takeFault_status : (s.takeFault f).status = .faulted f := rfl
@[simp] theorem takeFault_prog : (s.takeFault f).prog = s.prog := rfl

@[simp] theorem halt_params : s.halt.params = s.params := rfl
@[simp] theorem halt_table : s.halt.table = s.table := rfl
@[simp] theorem halt_phase : s.halt.phase = s.phase := rfl
@[simp] theorem halt_pending : s.halt.pending = s.pending := rfl
@[simp] theorem halt_regs : s.halt.regs = s.regs := rfl
@[simp] theorem halt_mem : s.halt.mem = s.mem := rfl
@[simp] theorem halt_pc : s.halt.pc = s.pc := rfl
@[simp] theorem halt_status : s.halt.status = .halted := rfl
@[simp] theorem halt_prog : s.halt.prog = s.prog := rfl

@[simp] theorem react_params : (s.react r).params = s.params := by rcases r with (_ | _) | _ | _ <;> rfl
@[simp] theorem react_table : (s.react r).table = s.table := by rcases r with (_ | _) | _ | _ <;> rfl
@[simp] theorem react_phase : (s.react r).phase = s.phase := by rcases r with (_ | _) | _ | _ <;> rfl
@[simp] theorem react_pending : (s.react r).pending = s.pending := by rcases r with (_ | _) | _ | _ <;> rfl
@[simp] theorem react_regs : (s.react r).regs = s.regs := by rcases r with (_ | _) | _ | _ <;> rfl
@[simp] theorem react_mem : (s.react r).mem = s.mem := by rcases r with (_ | _) | _ | _ <;> rfl
@[simp] theorem react_prog : (s.react r).prog = s.prog := by rcases r with (_ | _) | _ | _ <;> rfl

@[simp] theorem react_ok_status : (s.react (.ok b)).status = s.status := by cases b <;> rfl
@[simp] theorem react_fallthrough_pc : (s.react (.ok none)).pc = s.pc + 4#32 := rfl
@[simp] theorem react_taken_pc (disp : Word) : (s.react (.ok (some disp))).pc = branchTarget s.pc disp := rfl
@[simp] theorem react_arithmetic (w : Word) : s.react (.arithmeticFault w) = s.takeFault (.arithmetic w) := rfl
@[simp] theorem react_memory (w addr : Word) : s.react (.memoryFault w addr) = s.takeFault (.memory w addr) := rfl

@[simp] theorem reactTo_executed : s.reactTo (.executed r) = s.react r := rfl
@[simp] theorem reactTo_decodeFault (w : Word) : s.reactTo (.decodeFault w) = s.takeFault (.decode w) := rfl

/-- A register reads the same whatever REF does with the result. -/
@[simp] theorem react_readReg (x : Reg) : (s.react r).readReg x = s.readReg x := by
  simp [State.readReg, State.reg0Wired]

@[simp] theorem takeFault_readReg (x : Reg) : (s.takeFault f).readReg x = s.readReg x := rfl
end React

/-! ### Register File contract (R17 to R19) -/

theorem takesWrite_iff (s : State) (r : Reg) : s.TakesWrite r ↔ s.reg0Wired r = false := by
  unfold State.TakesWrite State.reg0Wired
  simp [← Bool.not_eq_true]

@[simp] theorem writeReg_reg0Wired (s : State) (r x : Reg) (v : Word) :
    (s.writeReg r v).reg0Wired x = s.reg0Wired x := by
  simp [State.reg0Wired]

theorem writeReg_regs (s : State) (r : Reg) (v : Word) :
    (s.writeReg r v).regs = if s.reg0Wired r then s.regs else s.regs.set r v := by
  unfold State.writeReg; split <;> rfl

theorem readReg_writeReg_same (s : State) (r : Reg) (v : Word) :
    (s.writeReg r v).readReg r = if s.reg0Wired r then 0#32 else v := by
  unfold State.readReg
  rw [writeReg_reg0Wired, writeReg_regs]
  split <;> simp

@[simp] theorem readReg_writeReg_other (s : State) (r x : Reg) (v : Word) (h : x ≠ r) :
    (s.writeReg r v).readReg x = s.readReg x := by
  have hv : r.val ≠ x.val := fun e => h (Fin.ext e.symm)
  unfold State.readReg
  rw [writeReg_reg0Wired, writeReg_regs]
  by_cases hr : s.reg0Wired r = true <;> simp [hr, Vector.getElem_set_ne, hv]

/-- A write to `r` wrote `r`. -/
theorem wrote_writeReg (s : State) (r : Reg) (v : Word) : Wrote s (s.writeReg r v) r v := by
  constructor <;> intro h <;> rw [takesWrite_iff] at h <;> simp_all [readReg_writeReg_same]

/-- A write to `r` keeps every other register. -/
theorem regsKept_writeReg (s : State) (r : Reg) (v : Word) : RegsKept [r] s (s.writeReg r v) := by
  intro x hx
  exact readReg_writeReg_other s r x v (by simpa using hx)

/-- The stored cell of register 0 keeps its zero where it is hardwired. -/
theorem writeReg_reg0 (s : State) (r : Reg) (v : Word) (hp : s.params.reg0 = .hardwiredZero)
    (h : s.regs[(0 : Reg)] = 0#32) : (s.writeReg r v).regs[(0 : Reg)] = 0#32 := by
  by_cases hr : r = 0
  · subst hr; simpa [State.writeReg, State.reg0Wired, hp] using h
  · have hv : r.val ≠ 0 := fun e => hr (Fin.ext e)
    have h' : s.regs[0] = 0#32 := h
    simp [State.writeReg, State.reg0Wired, hr, hp, hv, h']

end Sys2Proof.Machine
end

