-- ==== Sys2Proof/Laws/Memory.lean ====
section
/-! SUPPORT. The laws of memory: bytes, words, the canonical form, and the Memory Model contract. -/

namespace Sys2Proof.Machine

/-! ### Bytes -/

theorem readByte_cons (k : Nat) (v : Byte) (m : Memory) (a : Nat) :
    Memory.readByte ((k, v) :: m) a = if k = a then v else Memory.readByte m a := rfl

theorem readByte_consByte_ne (m : Memory) {a c : Nat} (b : Byte) (h : c ≠ a) :
    Memory.readByte (Memory.consByte a b m) c = Memory.readByte m c := by
  unfold Memory.consByte
  split
  · rfl
  · rw [readByte_cons, if_neg (Ne.symm h)]

/-- An address below every listed one reads as unlisted. -/
theorem readByte_of_below {m : Memory} {a : Nat} (h : ∀ c ∈ m, a < c.1) : Memory.readByte m a = unlistedByte := by
  induction m with
  | nil => rfl
  | cons c m ih =>
    obtain ⟨k, v⟩ := c
    have hk : a < k := h (k, v) (by simp)
    rw [readByte_cons, if_neg (by omega), ih (fun c hc => h c (by simp [hc]))]

/-- A store of one byte leaves every other byte alone, in any memory. -/
theorem readByte_writeByte_ne (m : Memory) {a c : Nat} (b : Byte) (h : c ≠ a) :
    Memory.readByte (Memory.writeByte m a b) c = Memory.readByte m c := by
  induction m with
  | nil => exact readByte_consByte_ne [] b h
  | cons x m ih =>
    obtain ⟨k, v⟩ := x
    unfold Memory.writeByte
    split
    · rw [readByte_cons, readByte_cons, ih]
    · split
      · next hk => rw [readByte_consByte_ne m b h, readByte_cons, if_neg (by omega)]
      · exact readByte_consByte_ne _ b h

/-- What is listed after a store was listed before, or is the byte stored. -/
theorem mem_writeByte {m : Memory} {a : Nat} {b : Byte} {c : Host.Cell} (h : c ∈ Memory.writeByte m a b) :
    c ∈ m ∨ (c = (a, b) ∧ b ≠ unlistedByte) := by
  induction m with
  | nil =>
    unfold Memory.writeByte Memory.consByte at h
    split at h
    · simp at h
    · simp_all
  | cons x m ih =>
    obtain ⟨k, v⟩ := x
    unfold Memory.writeByte at h
    split at h
    · rcases List.mem_cons.1 h with rfl | h
      · simp
      · rcases ih h with h | h <;> simp [h]
    · split at h <;> unfold Memory.consByte at h <;> split at h <;> simp at h ⊢ <;> tauto

/-- A store of one byte keeps the canonical form. -/
theorem writeByte_wf {m : Memory} (a : Nat) (b : Byte) (h : Memory.wf m) : Memory.wf (Memory.writeByte m a b) := by
  refine ⟨?_, fun c hc => ?_⟩
  · obtain ⟨hs, -⟩ := h
    induction m with
    | nil => unfold Memory.writeByte Memory.consByte; split <;> simp
    | cons x m ih =>
      obtain ⟨k, v⟩ := x
      obtain ⟨hx, hs⟩ := List.pairwise_cons.1 hs
      unfold Memory.writeByte
      split
      · next hk =>
        refine List.pairwise_cons.2 ⟨fun c hc => ?_, ih hs⟩
        rcases mem_writeByte hc with hc | ⟨rfl, -⟩
        · exact hx c hc
        · exact hk
      · split
      -- the entry of the address itself is replaced
        · next hk =>
          unfold Memory.consByte
          split
          · exact hs
          · exact List.pairwise_cons.2 ⟨fun c hc => by simpa [← hk] using hx c hc, hs⟩
      -- the new entry comes in front
        · unfold Memory.consByte
          split
          · exact List.pairwise_cons.2 ⟨hx, hs⟩
          · refine List.pairwise_cons.2 ⟨fun c hc => ?_, List.pairwise_cons.2 ⟨hx, hs⟩⟩
            rcases List.mem_cons.1 hc with rfl | hc
            · show a < k; omega
            · have := hx c hc
              show a < c.1; simp at this; omega
  · rcases mem_writeByte hc with hc | ⟨rfl, hb⟩
    · exact h.2 c hc
    · exact hb

/-- A byte just stored is read back. -/
theorem readByte_writeByte_same {m : Memory} (a : Nat) (b : Byte) (h : Memory.wf m) :
    Memory.readByte (Memory.writeByte m a b) a = b := by
  obtain ⟨hs, -⟩ := h
  have cons_same : ∀ {m : Memory}, (∀ c ∈ m, a < c.1) → Memory.readByte (Memory.consByte a b m) a = b := by
    intro m hm
    unfold Memory.consByte
    split
    · next hb => rw [readByte_of_below hm, hb]
    · rw [readByte_cons, if_pos rfl]
  induction m with
  | nil => exact cons_same (by simp)
  | cons x m ih =>
    obtain ⟨k, v⟩ := x
    obtain ⟨hx, hs⟩ := List.pairwise_cons.1 hs
    unfold Memory.writeByte
    split
    · rw [readByte_cons, if_neg (by omega), ih hs]
    · split
      · next hk => exact cons_same (fun c hc => by simpa [← hk] using hx c hc)
      · refine cons_same (fun c hc => ?_)
        rcases List.mem_cons.1 hc with rfl | hc
        · show a < k; omega
        · have := hx c hc
          show a < c.1; simp at this; omega

/-! ### Words -/

/-- A store of one word keeps the canonical form. -/
theorem writeWord_wf {m : Memory} (a : Nat) (v : Word) (h : Memory.wf m) : Memory.wf (Memory.writeWord m a v) :=
  writeByte_wf _ _ (writeByte_wf _ _ (writeByte_wf _ _ (writeByte_wf _ _ h)))

/-- A store of one word leaves every byte outside it alone, in any memory. -/
theorem readByte_writeWord_outside (m : Memory) (a : Nat) (v : Word) {c : Nat} (h : c < a ∨ a + 4 ≤ c) :
    Memory.readByte (Memory.writeWord m a v) c = Memory.readByte m c := by
  unfold Memory.writeWord
  rw [readByte_writeByte_ne _ _ (by omega), readByte_writeByte_ne _ _ (by omega),
    readByte_writeByte_ne _ _ (by omega), readByte_writeByte_ne _ _ (by omega)]

/-- The four bytes of a stored word, lowest address least significant. -/
theorem readByte_writeWord_inside {m : Memory} (a : Nat) (v : Word) (h : Memory.wf m) :
    Memory.readByte (Memory.writeWord m a v) a = v.extractLsb' 0 8 ∧
    Memory.readByte (Memory.writeWord m a v) (a + 1) = v.extractLsb' 8 8 ∧
    Memory.readByte (Memory.writeWord m a v) (a + 2) = v.extractLsb' 16 8 ∧
    Memory.readByte (Memory.writeWord m a v) (a + 3) = v.extractLsb' 24 8 := by
  unfold Memory.writeWord
  have h1 := writeByte_wf a (v.extractLsb' 0 8) h
  have h2 := writeByte_wf (a + 1) (v.extractLsb' 8 8) h1
  have h3 := writeByte_wf (a + 2) (v.extractLsb' 16 8) h2
  refine ⟨?_, ?_, ?_, readByte_writeByte_same _ _ h3⟩
  · rw [readByte_writeByte_ne _ _ (by omega), readByte_writeByte_ne _ _ (by omega),
      readByte_writeByte_ne _ _ (by omega), readByte_writeByte_same _ _ h]
  · rw [readByte_writeByte_ne _ _ (by omega), readByte_writeByte_ne _ _ (by omega), readByte_writeByte_same _ _ h1]
  · rw [readByte_writeByte_ne _ _ (by omega), readByte_writeByte_same _ _ h2]

/-- A word is its four bytes. -/
theorem bytes_of_word (v : Word) :
    v.extractLsb' 24 8 ++ v.extractLsb' 16 8 ++ v.extractLsb' 8 8 ++ v.extractLsb' 0 8 = v := by
  apply BitVec.eq_of_getLsbD_eq
  intro i hi
  interval_cases i <;> simp only [BitVec.getLsbD_append, BitVec.getLsbD_extractLsb'] <;> simp

/-- A word just stored is read back. -/
theorem readWord_writeWord_same {m : Memory} (a : Nat) (v : Word) (h : Memory.wf m) :
    Memory.readWord (Memory.writeWord m a v) a = v := by
  obtain ⟨h0, h1, h2, h3⟩ := readByte_writeWord_inside a v h
  unfold Memory.readWord
  rw [h0, h1, h2, h3, bytes_of_word]

/-- A store leaves every word it doesn't overlap alone, in any memory. -/
theorem readWord_writeWord_other (m : Memory) {a b : Nat} (v : Word) (h : b + 4 ≤ a ∨ a + 4 ≤ b) :
    Memory.readWord (Memory.writeWord m a v) b = Memory.readWord m b := by
  unfold Memory.readWord
  rw [readByte_writeWord_outside _ _ _ (by omega), readByte_writeWord_outside _ _ _ (by omega),
    readByte_writeWord_outside _ _ _ (by omega), readByte_writeWord_outside _ _ _ (by omega)]

/-- What is listed after a word's store was listed before, or lies in the word. -/
theorem mem_writeWord {m : Memory} {a : Nat} {v : Word} {c : Host.Cell} (h : c ∈ Memory.writeWord m a v) :
    c ∈ m ∨ (a ≤ c.1 ∧ c.1 < a + 4) := by
  unfold Memory.writeWord at h
  rcases mem_writeByte h with h | ⟨rfl, -⟩
  · rcases mem_writeByte h with h | ⟨rfl, -⟩
    · rcases mem_writeByte h with h | ⟨rfl, -⟩
      · rcases mem_writeByte h with h | ⟨rfl, -⟩
        · exact .inl h
        · exact .inr ⟨by simp, by simp⟩
      · exact .inr ⟨by simp, by simp⟩
    · exact .inr ⟨by simp, by simp⟩
  · exact .inr ⟨by simp, by simp⟩

/-! ### Memory Model contract (R33 to R36) -/

theorem accepts_iff (p : Params) (a : Word) :
    accepts p a = true ↔ unsigned a % 4 = 0 ∧ memValid p a = true := by
  simp [accepts, aligned]

/-- When the Memory Model refuses (R33 to R36). -/
theorem accepts_eq_false_iff (p : Params) (a : Word) :
    accepts p a = false ↔ unsigned a % 4 ≠ 0 ∨ memValid p a = false := by
  rw [← Bool.not_eq_true, accepts_iff]
  cases memValid p a <;> simp

/-- Everything `setWord` can answer. -/
theorem setWord_eq_some {s t : State} {a v : Word} :
    s.setWord a v = some t ↔
      accepts s.params a = true ∧ t = { s with mem := Memory.writeWord s.mem (unsigned a) v } := by
  unfold State.setWord
  split <;> simp_all [@eq_comm _ t]

theorem setWord_eq_none {s : State} {a v : Word} : s.setWord a v = none ↔ accepts s.params a = false := by
  unfold State.setWord
  split <;> simp_all

/-- Everything `getWord` can answer. -/
theorem getWord_eq_some {s : State} {a v : Word} :
    s.getWord a = some v ↔ accepts s.params a = true ∧ v = Memory.readWord s.mem (unsigned a) := by
  unfold State.getWord
  split <;> simp_all [@eq_comm _ v]

theorem getWord_eq_none {s : State} {a : Word} : s.getWord a = none ↔ accepts s.params a = false := by
  unfold State.getWord
  split <;> simp_all

/-- The aligned word a byte of the word at `a` belongs to is `a` itself. -/
theorem wordBase_of_inside {a : Word} {c : Nat} (ha : unsigned a % 4 = 0) (h : unsigned a ≤ c) (h' : c < unsigned a + 4) :
    wordBase c = a := by
  have hc : c - c % 4 = unsigned a := by omega
  unfold wordBase
  rw [hc]; simp

/-- An accepted store keeps memory where `MEM_VALID` holds. -/
theorem writeWord_inside {p : Params} {m : Memory} {a : Word} (v : Word) (ha : accepts p a = true)
    (h : memInside p m) : memInside p (Memory.writeWord m (unsigned a) v) := by
  intro c hc
  obtain ⟨hal, hv⟩ := (accepts_iff p a).1 ha
  rcases mem_writeWord hc with hc | ⟨h1, h2⟩
  · exact h c hc
  · refine ⟨?_, by rw [wordBase_of_inside hal h1 h2]; exact hv⟩
    have : unsigned a < 2 ^ 32 := a.isLt
    omega

end Sys2Proof.Machine
end

