-- ==== Sys2Proof/Laws/Exec.lean ====
section
/-! SUPPORT. What an instruction and a step can do, said once: the writes an instruction makes, REF's reaction, and
the cases of a step. -/

namespace Sys2Proof.Machine

/-- What the writes of one instruction can make of a state. -/
inductive Effect (s : State) : State → Prop
  | nothing : Effect s s
  | write (r : Reg) (v : Word) : Effect s (s.writeReg r v)
  | writeTwo (r x : Reg) (v u : Word) : Effect s ((s.writeReg r v).writeReg x u)
  | store (a v : Word) (h : accepts s.params a = true) :
      Effect s { s with mem := Memory.writeWord s.mem (unsigned a) v }

namespace Effect
variable {s t : State}

theorem params (h : Effect s t) : t.params = s.params := by cases h <;> simp
theorem table (h : Effect s t) : t.table = s.table := by cases h <;> simp
theorem phase (h : Effect s t) : t.phase = s.phase := by cases h <;> simp
theorem pending (h : Effect s t) : t.pending = s.pending := by cases h <;> simp
theorem pc (h : Effect s t) : t.pc = s.pc := by cases h <;> simp
theorem status (h : Effect s t) : t.status = s.status := by cases h <;> simp
theorem prog (h : Effect s t) : t.prog = s.prog := by cases h <;> simp

theorem hostKept (h : Effect s t) : HostKept s t :=
  ⟨h.params, h.table, h.phase, h.pending, h.status, h.prog⟩

theorem memForm (h : Effect s t) (hm : Memory.wf s.mem) : Memory.wf t.mem := by
  cases h with
  | nothing => exact hm
  | write => simpa using hm
  | writeTwo => simpa using hm
  | store a v => exact writeWord_wf _ v hm

theorem memWhere (h : Effect s t) (hm : memInside s.params s.mem) : memInside t.params t.mem := by
  cases h with
  | nothing => exact hm
  | write => simpa using hm
  | writeTwo => simpa using hm
  | store a v ha => exact writeWord_inside v ha hm

theorem reg0 (h : Effect s t) (hp : s.params.reg0 = .hardwiredZero) (h0 : s.regs[(0 : Reg)] = 0#32) :
    t.regs[(0 : Reg)] = 0#32 := by
  cases h with
  | nothing => exact h0
  | write r v => exact writeReg_reg0 s r v hp h0
  | writeTwo r x v u => exact writeReg_reg0 _ x u (by simpa using hp) (writeReg_reg0 s r v hp h0)
  | store => exact h0

end Effect

/-- The unit makes an instruction's writes and completes, or faults with none made (R77 to R79). -/
theorem execute_cases (i : Instr) (w : Word) (s : State) :
    (∃ s' b, Effect s s' ∧ execute i w s = ⟨s', .ok b⟩) ∨ execute i w s = ⟨s, .arithmeticFault w⟩ ∨
      ∃ a, execute i w s = ⟨s, .memoryFault w a⟩ := by
  have one : ∀ r v, ∃ s' b, Effect s s' ∧ (⟨s.writeReg r v, .ok none⟩ : UnitOutcome) = ⟨s', .ok b⟩ :=
    fun r v => ⟨_, _, .write r v, rfl⟩
  have still : ∀ b d, ∃ s' b', Effect s s' ∧ (⟨s, branchIf b d⟩ : UnitOutcome) = ⟨s', .ok b'⟩ :=
    fun b d => ⟨_, _, .nothing, rfl⟩
  cases i with
  | gain rd rs rt => exact .inl (one _ _)
  | lose rd rs rt => exact .inl (one _ _)
  | put rd rs v => exact .inl (one _ _)
  | weld rd rs rt => exact .inl (one _ _)
  | merge rd rs rt => exact .inl (one _ _)
  | vs rd rs rt => exact .inl (one _ _)
  | gre rt rs v =>
    simp only [execute, unitGre]
    split
    · next s' h =>
      obtain ⟨ha, rfl⟩ := setWord_eq_some.1 h
      exact .inl ⟨_, _, .store _ _ ha, rfl⟩
    · exact .inr (.inr ⟨_, rfl⟩)
  | dr rd rs v =>
    simp only [execute, unitDr]
    split
    · exact .inl (one _ _)
    · exact .inr (.inr ⟨_, rfl⟩)
  | nos rd rs rt => exact .inl (one _ _)
  | split rd rs rt =>
    simp only [execute, unitSplit]
    split
    · exact .inr (.inl rfl)
    · exact .inl (one _ _)
  | fuel rd v => exact .inl (one _ _)
  | lup rd => exact .inl (one _ _)
  | cklap rd rs d => exact .inl (still _ _)
  | otk rd rs d => exact .inl (still _ _)
  | turbo rd rs => exact .inl (one _ _)
  | skid rd rs => exact .inl (one _ _)
  | pit rd rs => exact .inl ⟨_, _, .writeTwo _ _ _ _, rfl⟩
  | hz rd rs d => exact .inl (still _ _)
  | hot rd rs v =>
    simp only [execute, unitHot]
    split
    · exact .inl ⟨_, _, .writeTwo _ _ _ _, rfl⟩
    · exact .inl (one _ _)
  | cool rd rs v => exact .inl (one _ _)

/-- The step of a decoded instruction is REF's reaction to what the unit makes of the word at `pc`. -/
theorem exec_eq_finish (i : Instr) (s : State) : exec i s = finish (execute i s.currentWord s) := by
  cases i <;> rfl

/-- An instruction makes its writes and completes, or faults with none made. -/
theorem exec_cases (i : Instr) (s : State) :
    (∃ s' b, Effect s s' ∧ exec i s = finish ⟨s', .ok b⟩) ∨ exec i s = finish ⟨s, .arithmeticFault s.currentWord⟩ ∨
      ∃ a, exec i s = finish ⟨s, .memoryFault s.currentWord a⟩ := by
  rw [exec_eq_finish]
  rcases execute_cases i s.currentWord s with ⟨s', b, he, h⟩ | h | ⟨a, h⟩ <;> rw [h]
  · exact .inl ⟨s', b, he, rfl⟩
  · exact .inr (.inl rfl)
  · exact .inr (.inr ⟨a, rfl⟩)

/-- A register instruction: its one write and the fall-through say everything about it. -/
theorem completes_of_write {i : Instr} {s : State} {rd : Reg} {v : Word}
    (h : exec i s = finish ⟨s.writeReg rd v, .ok none⟩) :
    CompletesWriting [rd] i s ((s.writeReg rd v).react (.ok none)) ∧
      Wrote s ((s.writeReg rd v).react (.ok none)) rd v := by
  refine ⟨⟨h, fun r hr => ?_, fun a => by simp, by simp [HostKept], by simp⟩, ?_, ?_⟩
  · rw [react_readReg]; exact regsKept_writeReg s rd v r hr
  · intro hw; rw [react_readReg]; exact (wrote_writeReg s rd v).1 hw
  · intro hw; rw [react_readReg]; exact (wrote_writeReg s rd v).2 hw

theorem fetchable_iff (s : State) : s.fetchable = true ↔
    s.pc.toNat % 4 = 0 ∧ 0x00400000 ≤ s.pc.toNat ∧ s.pc.toNat < 0x00400000 + 4 * s.prog.length := by
  simp only [State.fetchable, Bool.and_eq_true, decide_eq_true_eq, beq_iff_eq, and_assoc]
  exact Iff.rfl

theorem atEnd_iff (s : State) : s.atEnd = true ↔ s.pc.toNat = 0x00400000 + 4 * s.prog.length := by
  simp only [State.atEnd, beq_iff_eq]
  exact Iff.rfl

/-- Where REF's fetch fails, the end of the run apart (R133). -/
theorem fetchWord_eq_none_iff {s : State} (he : s.atEnd = false) : s.fetchWord = none ↔
    s.pc.toNat % 4 ≠ 0 ∨ s.pc.toNat < 0x00400000 ∨ 0x00400000 + 4 * s.prog.length < s.pc.toNat := by
  have he' := mt (atEnd_iff s).2 (by simp [he])
  have ht : textBase = 0x00400000 := rfl
  unfold State.fetchWord
  by_cases hf : s.fetchable = true
  · have := (fetchable_iff s).1 hf
    simp only [hf, if_true, List.getElem?_eq_none_iff, unsigned, ht]
    omega
  · have := mt (fetchable_iff s).2 hf
    simp only [hf, if_false, Bool.false_eq_true, true_iff]
    omega

/-- The program word presented to the unit is the word REF fetches (R44). -/
theorem fetchWord_of_presents {s : State} {w : Word} (h : s.Presents w) : s.fetchWord = some w ∧ s.atEnd = false := by
  obtain ⟨k, hk, hw⟩ := h.word
  have hlt := (List.getElem?_eq_some_iff.1 hw).1
  have h4 : textBase % 4 = 0 := by decide
  refine ⟨?_, by simp [State.atEnd, hk]; omega⟩
  have hf : s.fetchable = true := by
    simp [State.fetchable, hk]; omega
  have hd : (unsigned s.pc - textBase) / 4 = k := by omega
  simp [State.fetchWord, hf, hd, hw]

/-- The instruction word a fault carries is the one presented. -/
theorem currentWord_of_presents {s : State} {w : Word} (h : s.Presents w) : s.currentWord = w := by
  simp [State.currentWord, (fetchWord_of_presents h).1]

/-- What an executed instruction can make of the status, and that a fault makes nothing else (R79). -/
theorem exec_status {i : Instr} {s t : State} (h : exec i s = .next t) :
    t.status = s.status ∨ (∃ w, t = s.takeFault (.arithmetic w)) ∨ ∃ w a, t = s.takeFault (.memory w a) := by
  rcases exec_cases i s with ⟨s', b, he, h'⟩ | h' | ⟨a, h'⟩ <;> rw [h'] at h <;>
    simp only [finish] at h <;> injection h with h <;> subst h
  · exact .inl (by simp [he.status])
  · exact .inr (.inl ⟨_, rfl⟩)
  · exact .inr (.inr ⟨_, _, rfl⟩)

/-- What a step that answers a next state can be, guards included (R143): one registration, the end of the run, a
fetch fault, a decode fault, or an instruction. -/
theorem step_cases {s t : State} (h : step s = .next t) :
    s.status = .running ∧
    ((s.phase = .population ∧ t = s.registerNext) ∨
     (s.phase = .run ∧ s.atEnd = true ∧ t = s.halt) ∨
     (s.phase = .run ∧ s.atEnd = false ∧ s.fetchWord = none ∧ t = s.takeFault (.fetch s.pc)) ∨
     (s.phase = .run ∧ s.atEnd = false ∧ ∃ w, s.fetchWord = some w ∧
       decodeIn s.table s.params.nregs w = none ∧ t = s.takeFault (.decode w)) ∨
     (s.phase = .run ∧ s.atEnd = false ∧ ∃ w i, s.fetchWord = some w ∧
       decodeIn s.table s.params.nregs w = some i ∧ exec i s = .next t)) := by
  unfold step State.frontEnd at h
  cases hs : s.status with
  | halted => simp [hs] at h
  | faulted f => simp [hs] at h
  | running =>
    refine ⟨rfl, ?_⟩
    cases hp : s.phase with
    | population =>
      simp only [hs, hp] at h
      exact .inl ⟨rfl, by cases h; rfl⟩
    | run =>
      refine .inr ?_
      simp only [hs, hp, State.fetchDecode] at h
      cases he : s.atEnd with
      | true => simp only [he, if_true] at h; exact .inl ⟨rfl, rfl, by cases h; rfl⟩
      | false =>
        refine .inr ?_
        simp only [he] at h
        cases hf : s.fetchWord with
        | none => simp [hf] at h; exact .inl ⟨rfl, rfl, rfl, h.symm⟩
        | some w =>
          refine .inr ?_
          cases hd : decodeIn s.table s.params.nregs w with
          | none => simp [hf, hd] at h; exact .inl ⟨rfl, rfl, w, rfl, hd, h.symm⟩
          | some i => simp [hf, hd] at h; exact .inr ⟨rfl, rfl, w, i, rfl, hd, h⟩

/-- A run of one step more is the step and then the run. -/
theorem run_succ_of_step (M : Host.Core) {s t : M.State} (h : M.step s = .next t) (n : Nat) :
    M.run (n + 1) s = M.run n t := by
  simp only [Host.Core.run, h]

theorem run_of_step {s t : State} (h : step s = .next t) (n : Nat) :
    Host.Core.run core (n + 1) s = Host.Core.run core n t := run_succ_of_step core h n

/-- A taken branch goes `disp` words past the next instruction (R113). -/
theorem branchTarget_eq (pc disp : Word) : branchTarget pc disp = pc + 4#32 + 4#32 * disp := by
  unfold branchTarget brShift
  congr 1
  exact BitVec.eq_of_toNat_eq (by simp [Nat.shiftLeft_eq, Nat.mul_comm])

end Sys2Proof.Machine
end

