-- ==== Sys2Proof/Laws/Operands.lean ====
section
/-! SUPPORT. One law per integer result (41_arith_register.md R92): exact arithmetic on signed readings, narrowed, is the
library's arithmetic on 32-bit vectors. -/

namespace Sys2Proof.Machine

theorem sumWord_eq (a b : Word) : sumWord a b = a + b := by
  simp [sumWord, BitVec.ofInt_add]

theorem differenceWord_eq (a b : Word) : differenceWord a b = a - b := by
  apply BitVec.eq_of_toInt_eq
  simp [differenceWord, wrap32, BitVec.toInt_ofInt, BitVec.toInt_sub]

theorem productWord_eq (a b : Word) : productWord a b = a * b := by
  simp [productWord, BitVec.ofInt_mul]

/-- The quotient of R89 is the library's division toward zero. -/
theorem quotientWord_eq (a b : Word) : quotientWord a b = wrap32 (Int.tdiv (signed a) (signed b)) := by
  unfold quotientWord
  congr 1
  obtain ⟨n, hn | hn⟩ := Int.eq_nat_or_neg (signed a) <;> obtain ⟨m, hm | hm⟩ := Int.eq_nat_or_neg (signed b) <;>
    rw [hn, hm] <;> rcases n.eq_zero_or_pos with rfl | hn' <;> rcases m.eq_zero_or_pos with rfl | hm' <;>
    simp [Int.sign_natCast_of_ne_zero, Nat.ne_of_gt, *, Int.sign_neg]

/-- The effective address is the wrapped sum of base and offset (R104). -/
theorem effectiveAddress_eq (s : State) (rs : Reg) (simm : Word) :
    s.effectiveAddress rs simm = s.readReg rs + simm := sumWord_eq _ _

/-! ### What a branch signals (R108, R110 to R112) -/

theorem branchIf_equalTo (a b disp : Word) :
    branchIf (equalTo a b) disp = .ok (if a = b then some disp else none) := by
  simp only [branchIf, equalTo, beq_iff_eq]

theorem branchIf_greaterThan (a b disp : Word) :
    branchIf (greaterThan a b) disp = .ok (if b.slt a then some disp else none) := by
  simp only [branchIf, greaterThan, decide_eq_true_eq, BitVec.slt_iff_toInt_lt, signed, gt_iff_lt]

theorem branchIf_not_equalTo (a b disp : Word) :
    branchIf (!equalTo a b) disp = .ok (if a = b then none else some disp) := by
  unfold branchIf equalTo
  by_cases h : a = b
  · subst h; simp
  · simp [h]

end Sys2Proof.Machine
end

