-- ==== Sys2Proof/Tests/Slice0.lean ====
section
/-! SUPPORT. Tests. Expected values are those of spec/95_test_vectors.md (section named at each group), of
30_encoding.md, and of the instruction rules' examples; the last part shows, for every statement with hypotheses,
a concrete state and operands that meet them. -/

namespace Sys2Proof.Tests

open Sys2Proof.Machine

/-! ### Helpers -/

/-- Reset with some registers set. -/
def start (rs : List (Reg × Word)) : State := rs.foldl (fun s x => s.writeReg x.1 x.2) State.reset

/-- The same with register 0 hardwired. -/
def wired (rs : List (Reg × Word)) : State :=
  rs.foldl (fun s x => s.writeReg x.1 x.2) { State.reset with params := ⟨32, .hardwiredZero, refWindows⟩ }

/-- One step on an instruction word. -/
def after (s : State) (w : Nat) : Option State :=
  match step (s.withFetchWord 32 w) with
  | .next t => some t
  | .fault _ => none
  | .refused _ => none

/-- A state that is about to run a word. -/
def about (s : State) (w : Nat) : State := s.withFetchWord 32 w

def regAfter (s : State) (w : Nat) (r : Reg) : Option Word := (after s w).map (fun t => t.readReg r)
def statusAfter (s : State) (w : Nat) : Option Status := (after s w).map State.status
def pcAfter (s : State) (w : Nat) : Option Word := (after s w).map State.pc

/-! ### WellFormed refuses an ill-formed term for each check -/

theorem test_wf_accepts : (Instr.hot 4 0 201#32).wellFormed 32 = true := by decide
theorem test_wf_refuses_register : (Instr.gain 5 6 7).wellFormed 7 = false := by decide
theorem test_wf_refuses_base_register : (Instr.gre 1 9 0#32).wellFormed 9 = false := by decide
theorem test_wf_refuses_large_immediate : (Instr.put 1 2 0x00008000#32).wellFormed 32 = false := by decide
theorem test_wf_refuses_small_immediate : (Instr.fuel 1 0xFFFF7FFF#32).wellFormed 32 = false := by decide
theorem test_wf_refuses_displacement : (Instr.hz 1 2 0x0000FFFD#32).wellFormed 32 = false := by decide

/-! ### Each constructor's word (the Example of its rule; R54) -/

theorem test_decode_r : decode 0x00C72801#32 = some (.gain 5 6 7) ∧ decode 0x00A62002#32 = some (.lose 4 5 6) ∧
    decode 0x00A62004#32 = some (.weld 4 5 6) ∧ decode 0x00A62005#32 = some (.merge 4 5 6) ∧
    decode 0x00A62006#32 = some (.vs 4 5 6) ∧ decode 0x00A62009#32 = some (.nos 4 5 6) ∧
    decode 0x00A6200A#32 = some (.split 4 5 6) := by decide
theorem test_decode_r_short : decode 0x0000480C#32 = some (.lup 9) ∧ decode 0x0060180F#32 = some (.turbo 3 3) ∧
    decode 0x0100580F#32 = some (.turbo 11 8) ∧ decode 0x00A02010#32 = some (.skid 4 5) ∧
    decode 0x00A02011#32 = some (.pit 4 5) := by decide
theorem test_decode_i : decode 0x0CA4FFFF#32 = some (.put 4 5 0xFFFFFFFF#32) ∧
    decode 0x2C08FFFF#32 = some (.fuel 8 0xFFFFFFFF#32) ∧ decode 0x50A40003#32 = some (.cool 4 5 3#32) ∧
    decode 0x4C0400C9#32 = some (.hot 4 0 201#32) ∧ decode 0x1E090004#32 = some (.gre 9 16 4#32) ∧
    decode 0x220AFFFC#32 = some (.dr 10 16 0xFFFFFFFC#32) := by decide
theorem test_decode_b : decode 0x35490002#32 = some (.cklap 9 10 2#32) ∧
    decode 0x3949FFFD#32 = some (.otk 9 10 0xFFFFFFFD#32) ∧ decode 0x49498000#32 = some (.hz 9 10 0xFFFF8000#32) := by
  decide
/-- 95_test_vectors.md 2.7: words that match nothing. -/
theorem test_decode_none : ([0x00000000, 0xFFFFFFFF, 0x00C72841, 0x04C72801, 0x0061180F, 0x0020480C, 0x2C28FFFF,
    0x00000014, 0x00000015, 0x54000000, 0x08000000, 0x24000000, 0x00000007] : List Nat).all
    (fun w => (decode (BitVec.ofNat 32 w)).isNone) = true := by decide
theorem test_decode_zero_fields : decode 0x00000001#32 = some (.gain 0 0 0) ∧ decode 0x0C000000#32 = some (.put 0 0 0#32) := by
  decide
/-- R65's examples. -/
theorem test_encode : encode (.gain 5 6 7) = 0x00C72801#32 ∧ encode (.turbo 3 3) = 0x0060180F#32 ∧
    encode (.hot 4 0 201#32) = 0x4C0400C9#32 ∧ encode (.fuel 8 0xFFFFFFFF#32) = 0x2C08FFFF#32 := by decide
theorem test_decode_table_word : decodeTableWord 32 0x1E090004 = some (.gre 9 16 4#32) ∧ decodeTableWord 32 (2 ^ 32 + 1) = none := by
  decide

/-- The mask and match columns of R54, R_FORMAT rows. -/
theorem test_columns_r : encR.map (fun d => (d.mask, d.matchBits)) = [(0xFC0007FF#32, 1#32), (0xFC0007FF#32, 2#32),
    (0xFC0007FF#32, 4#32), (0xFC0007FF#32, 5#32), (0xFC0007FF#32, 6#32), (0xFC0007FF#32, 9#32), (0xFC0007FF#32, 10#32),
    (0xFFFF07FF#32, 12#32), (0xFC1F07FF#32, 15#32), (0xFC1F07FF#32, 16#32), (0xFC1F07FF#32, 17#32)] := by decide
/-- The mask and match columns of R54, other rows. -/
theorem test_columns_i : encI.map (fun d => (d.mask, d.matchBits)) = [(0xFC000000#32, 0x0C000000#32),
    (0xFC000000#32, 0x1C000000#32), (0xFC000000#32, 0x20000000#32), (0xFFE00000#32, 0x2C000000#32),
    (0xFC000000#32, 0x34000000#32), (0xFC000000#32, 0x38000000#32), (0xFC000000#32, 0x48000000#32),
    (0xFC000000#32, 0x4C000000#32), (0xFC000000#32, 0x50000000#32)] := by decide
/-- Template strings of R54 (R58). -/
theorem test_template_lup : (encR.map Descriptor.templateChars)[7]? = some "000000 00000 00000 ddddd 00000 001100".toList := by
  decide
theorem test_template_gre : (encI.map Descriptor.templateChars)[1]? = some "000111 sssss ttttt iiiiiiiiiiiiiiii".toList := by
  decide

/-- R54's pattern of `lup`, read. -/
theorem test_read_template : readTemplate "000000 00000 00000 ddddd 00000 001100".toList =
    (encR[7]?).map Descriptor.template := by decide
theorem test_read_template_short : readTemplate "000000 00000 00000 ddddd 00000 00110".toList = none := by decide

/-! ### One step of each instruction (95_test_vectors.md 2.1 to 2.5) -/

theorem test_gain_wraps : regAfter (start [(6, 0x7FFFFFFF#32), (7, 1#32)]) 0x00C72801 5 = some 0x80000000#32 := by decide
theorem test_gain_one_register : regAfter (start [(4, 0x40000001#32)]) 0x00842001 4 = some 0x80000002#32 := by decide
theorem test_lose_negative : regAfter (start [(5, 5#32), (6, 7#32)]) 0x00A62002 4 = some 0xFFFFFFFE#32 := by decide
theorem test_lose_wraps : regAfter (start [(5, 0#32), (6, 0x80000000#32)]) 0x00A62002 4 = some 0x80000000#32 := by decide
theorem test_nos_low_word : regAfter (start [(5, 0x12345678#32), (6, 0x9ABCDEF0#32)]) 0x00A62009 4 = some 0x242D2080#32 := by
  decide
theorem test_split_toward_zero : regAfter (start [(5, 0xFFFFFFF9#32), (6, 2#32)]) 0x00A6200A 4 = some 0xFFFFFFFD#32 := by decide
theorem test_split_by_zero : statusAfter (start [(5, 7#32), (4, 0x63#32)]) 0x00A6200A =
    some (.faulted (.arithmetic 0x00A6200A#32)) ∧ regAfter (start [(5, 7#32), (4, 0x63#32)]) 0x00A6200A 4 = some 0x63#32 := by decide
theorem test_turbo_in_place : regAfter (start [(3, 0xFFFFFFFB#32)]) 0x0060180F 3 = some 0xFFFFFFF6#32 := by decide
theorem test_lup_wraps : regAfter (start [(9, 0x7FFFFFFF#32)]) 0x0000480C 9 = some 0x80000000#32 := by decide
theorem test_put_negative : regAfter (start [(5, 10#32)]) 0x0CA4FFFF 4 = some 9#32 := by decide
theorem test_put_wraps : regAfter (start [(5, 0x7FFFFFFF#32)]) 0x0CA47FFF 4 = some 0x80007FFE#32 := by decide
theorem test_fuel_negative : regAfter (start []) 0x2C088000 8 = some 0xFFFF8000#32 := by decide
theorem test_cool_subtracts_negative : regAfter (start [(5, 0#32)]) 0x50A48000 4 = some 0x00008000#32 := by decide
theorem test_hot_over : regAfter (start [(2, 7#32)]) 0x4C0400C9 2 = some 8#32 ∧ regAfter (start [(2, 7#32)]) 0x4C0400C8 2 = some 7#32 := by
  decide
theorem test_hot_into_two : regAfter (start [(2, 0xC8#32)]) 0x4C420001 2 = some 0xCA#32 := by decide
theorem test_weld : regAfter (start [(5, 0xFF00FF00#32), (6, 0x0FF00FF0#32)]) 0x00A62004 4 = some 0x0F000F00#32 := by decide
theorem test_merge : regAfter (start [(5, 0xFF00FF00#32), (6, 0x0FF00FF0#32)]) 0x00A62005 4 = some 0xFFF0FFF0#32 := by decide
theorem test_vs_signed : regAfter (start [(5, 0xFFFFFFFF#32), (6, 0#32)]) 0x00A62006 4 = some 1#32 := by decide
theorem test_vs_greater : regAfter (start [(5, 0x7FFFFFFF#32), (6, 0x80000000#32), (4, 9#32)]) 0x00A62006 4 = some 0#32 := by decide
theorem test_skid_negative : regAfter (start [(5, 0x80000000#32), (4, 9#32)]) 0x00A02010 4 = some 0#32 := by decide
theorem test_skid_positive : regAfter (start [(5, 0x11#32)]) 0x00A02010 4 = some 0x11#32 := by decide
theorem test_pit_swaps : regAfter (start [(4, 1#32), (5, 2#32)]) 0x00A02011 4 = some 2#32 ∧
    regAfter (start [(4, 1#32), (5, 2#32)]) 0x00A02011 5 = some 1#32 := by decide
theorem test_gre_stores : ((after (start [(16, 0x10010008#32), (9, 0x11#32)]) 0x1E09FFFC).bind
    (fun t => t.getWord 0x10010004#32)) = some 0x11#32 := by decide
theorem test_gre_below_window : statusAfter (start [(16, 0x10010000#32), (9, 5#32)]) 0x1E09FFFC =
    some (.faulted (.memory 0x1E09FFFC#32 0x1000FFFC#32)) := by decide
theorem test_dr_loads : (after (start [(16, 0x10010000#32), (9, 0xCAFEBABE#32)]) 0x1E090004).bind
    (fun t => regAfter t 0x220A0004 10) = some 0xCAFEBABE#32 := by decide
theorem test_dr_misaligned : statusAfter (start [(16, 0x10010000#32)]) 0x220A0001 =
    some (.faulted (.memory 0x220A0001#32 0x10010001#32)) := by decide
theorem test_cklap_taken : pcAfter (start [(9, 5#32), (10, 5#32)]) 0x35490002 = some 0x0040000C#32 := by decide
theorem test_cklap_not_taken : pcAfter (start [(9, 5#32), (10, 6#32)]) 0x35490002 = some 0x00400004#32 := by decide
theorem test_otk_signed : pcAfter (start [(9, 0#32), (10, 0xFFFFFFFF#32)]) 0x3949FFFD = some 0x003FFFF8#32 := by decide
theorem test_otk_equal : pcAfter (start [(9, 5#32), (10, 5#32)]) 0x3949FFFD = some 0x00400004#32 := by decide
theorem test_hz_taken : pcAfter (start [(9, 4#32), (10, 5#32)]) 0x4949FFFD = some 0x003FFFF8#32 := by decide
theorem test_hz_same : pcAfter (start [(9, 0x4D#32)]) 0x49290004 = some 0x00400004#32 := by decide

/-! ### The unit's results without REF (R77; the Examples of R89, R105, R110) -/

theorem test_unit_branch : (unitStep 0x35490002#32 (about (start [(9, 5#32), (10, 5#32)]) 0)).2 = .executed (.ok (some 2#32)) ∧
    (unitStep 0x35490002#32 (about (start [(9, 5#32), (10, 6#32)]) 0)).2 = .executed (.ok none) := by decide
/-- R110: a displacement of 0 is signalled, though REF's `pc` is that of falling through. -/
theorem test_unit_branch_zero : (unitStep 0x35490000#32 (about (start []) 0)).2 = .executed (.ok (some 0#32)) := by decide
theorem test_unit_split : (unitStep 0x00A6200A#32 (about (start [(5, 7#32)]) 0)).2 =
    .executed (.arithmeticFault 0x00A6200A#32) := by decide
theorem test_unit_gre : (unitStep 0x1E090004#32 (about (start [(16, 0x10010001#32)]) 0)).2 =
    .executed (.memoryFault 0x1E090004#32 0x10010005#32) := by decide
theorem test_unit_decode : (unitStep 0#32 (about (start []) 0)).2 = .decodeFault 0#32 := by decide

/-! ### Register 0 (95_test_vectors.md 2.6) -/

theorem test_reg0_ordinary : regAfter (start []) 0x0000000C 0 = some 1#32 := by decide
theorem test_reg0_wired : regAfter (wired []) 0x2C000005 0 = some 0#32 := by decide
theorem test_reg0_wired_pit : regAfter (wired [(5, 7#32)]) 0x00A00011 5 = some 0#32 := by decide
theorem test_reg0_wired_hot : regAfter (wired [(5, 0x12C#32), (2, 1#32)]) 0x4CA00000 2 = some 2#32 := by decide

/-! ### Registration (95_test_vectors.md 2.8), population, the run's ends (section 3) -/

/-- `gain` with `fz` left free. -/
def gainFree : Descriptor :=
  ⟨"gain", "", .rFormat, fixedBits 6 0 ++ List.replicate 20 .s ++ fixedBits 6 1, .gain⟩

theorem test_overlap_collides : (encR.head?.map (collides gainFree)) = some true := by decide
theorem test_same_collides : enc.all (fun d => collides d d) = true := by decide
theorem test_populate_rows : (populate [] encI).map Descriptor.semantic = encI.map Descriptor.semantic := by decide
theorem test_first_registrations : (match Host.Core.run core 2 State.reset with
    | .next t => decide (t.table.map Descriptor.semantic = [.gain, .lose] ∧ t.phase = .population ∧ t.pending.length = 18)
    | .fault _ => false
    | .refused _ => false) = true := by decide
theorem test_last_registration : ({ State.reset with pending := enc.take 1 } : State).registerNext.phase = .run := by decide
/-- A word presented before its row is registered does not decode (R138). -/
theorem test_partial_table : decodeIn (enc.take 1) 32 0x00A62002#32 = none := by decide
theorem test_illegal_word : statusAfter (start []) 0 = some (.faulted (.decode 0#32)) := by decide
/-- P7's variant: a wild branch completes and the next fetch faults. -/
theorem test_wild_branch : (match after (start []) 0x34000100 with
    | some t => (match step t with
      | .next u => decide (u.status = .faulted (.fetch 0x00400404#32) ∧ u.pc = 0x00400404#32)
      | .fault _ => false
      | .refused _ => false)
    | none => false) = true := by decide
/-- Falling through the last word ends the run. -/
theorem test_halts : (match after (start []) 0x2C080003 with
    | some t => (match step t with
      | .next u => decide (u.status = .halted ∧ u.pc = 0x00400004#32)
      | .fault _ => false
      | .refused _ => false)
    | none => false) = true := by decide

/-! ### Hypotheses that some state meets -/

theorem about_presents : (about (start []) 0x00C72801).Presents 0x00C72801#32 :=
  ⟨rfl, rfl, 0, by decide, rfl⟩

theorem witness_split_zero : (start [(5, 7#32)]).readReg 6 = 0#32 := by decide
theorem witness_fuel_illegal : opField 0x2C20FFFF#32 = 11 ∧ faField 0x2C20FFFF#32 ≠ 0 := by decide
theorem witness_split_divides : (start [(6, 2#32)]).readReg 6 ≠ 0#32 ∧
    (start [(5, 0x80000000#32), (6, 0xFFFFFFFF#32)]).readReg 5 = 0x80000000#32 ∧
    (start [(5, 0x80000000#32), (6, 0xFFFFFFFF#32)]).readReg 6 = 0xFFFFFFFF#32 := by decide
theorem witness_arithmetic_fault : (about (start []) 0x00A6200A).Presents 0x00A6200A#32 ∧
    decodeIn (about (start []) 0x00A6200A).table 32 0x00A6200A#32 = some (.split 4 5 6) ∧
    (about (start []) 0x00A6200A).readReg 6 = 0#32 := ⟨⟨rfl, rfl, 0, by decide, rfl⟩, by decide, by decide⟩
theorem witness_arithmetic_status : ∃ t, exec (.split 4 5 6) (about (start []) 0x00A6200A) = .next t ∧
    t.status = .faulted (.arithmetic 0x00A6200A#32) := ⟨_, rfl, by decide⟩
theorem witness_hot : (200#32 : Word) = (start []).readReg 5 + 200#32 ∧ (200#32).toInt ≤ 200 ∧
    (201#32 : Word) = (start []).readReg 5 + 201#32 ∧ 200 < (201#32).toInt ∧ (4 : Reg) ≠ 2 ∧ (2 : Reg) = 2 := by decide
theorem witness_vs : ((start [(6, 1#32)]).readReg 5).toInt < ((start [(6, 1#32)]).readReg 6).toInt ∧
    ((start []).readReg 6).toInt ≤ ((start []).readReg 5).toInt := by decide
theorem witness_pit_twice : (start []).TakesWrite 0 ∧ (wired []).TakesWrite 5 ∧ ¬ (wired []).TakesWrite 0 := by
  refine ⟨?_, ?_, ?_⟩ <;> unfold State.TakesWrite <;> decide
theorem witness_gre_last_word : Memory.wf (start [(16, 0x10010FFC#32)]).mem ∧
    (start [(16, 0x10010FFC#32)]).effectiveAddress 16 0#32 = 0x10010FFC#32 ∧ (0x10010FFC#32).toNat % 4 = 0 ∧
    memValid (start []).params 0x10010FFC#32 = true := by decide
theorem witness_dr_first_word : (start [(16, 0x10010004#32)]).effectiveAddress 16 0xFFFFFFFC#32 = 0x10010000#32 ∧
    (0x10010000#32).toNat % 4 = 0 ∧ memValid (start []).params 0x10010000#32 = true := by decide
theorem witness_refused_ends : (start [(16, 0x10010FFD#32)]).effectiveAddress 16 0#32 = 0x10010FFD#32 ∧
    (0x10010FFD#32).toNat % 4 ≠ 0 ∧ memValid (start []).params 0x10011000#32 = false ∧
    memValid (start []).params 0x1000FFFC#32 = false := by decide
theorem witness_memory_fault_gre : (about (start [(16, 0x10011000#32)]) 0x1E090000).Presents 0x1E090000#32 ∧
    decodeIn (about (start [(16, 0x10011000#32)]) 0x1E090000).table 32 0x1E090000#32 = some (.gre 9 16 0#32) ∧
    (about (start [(16, 0x10011000#32)]) 0x1E090000).effectiveAddress 16 0#32 = 0x10011000#32 ∧
    memValid (start []).params 0x10011000#32 = false := ⟨⟨rfl, rfl, 0, by decide, rfl⟩, by decide, by decide, by decide⟩
theorem witness_memory_fault_dr : (about (start [(16, 0x10010000#32)]) 0x220A0003).Presents 0x220A0003#32 ∧
    decodeIn (about (start [(16, 0x10010000#32)]) 0x220A0003).table 32 0x220A0003#32 = some (.dr 10 16 3#32) ∧
    (about (start [(16, 0x10010000#32)]) 0x220A0003).effectiveAddress 16 3#32 = 0x10010003#32 ∧
    (0x10010003#32).toNat % 4 ≠ 0 := ⟨⟨rfl, rfl, 0, by decide, rfl⟩, by decide, by decide, by decide⟩
theorem witness_memory_status : ∃ t, exec (.dr 10 16 3#32) (about (start [(16, 0x10010000#32)]) 0x220A0003) = .next t ∧
    t.status = .faulted (.memory 0x220A0003#32 0x10010003#32) := ⟨_, rfl, by decide⟩
theorem witness_round_trip : ∃ t, exec (.gre 9 16 4#32) (start [(16, 0x10010000#32)]) = .next t ∧ t.status = .running ∧
    t.effectiveAddress 16 4#32 = (start [(16, 0x10010000#32)]).effectiveAddress 16 4#32 := ⟨_, rfl, by decide, by decide⟩
theorem witness_memory_contract : ∃ t, (start []).setWord 0x10010000#32 5#32 = some t ∧ Memory.wf (start []).mem ∧
    (0x10010004#32 : Word) ≠ 0x10010000#32 := ⟨_, rfl, by decide, by decide⟩
theorem witness_program_area : (start []).params.windows = refWindows ∧
    (start [(16, 0x00400000#32)]).effectiveAddress 16 0#32 = 0x00400000#32 ∧ textBase ≤ (0x00400000#32).toNat ∧
    (start [(16, 0x1000FFFC#32)]).effectiveAddress 16 0#32 = 0x1000FFFC#32 ∧ (0x1000FFFC#32).toNat < 0x10010000 := by decide
/-- R113's example: from 0x00400014 back to 0x0040000C is -3. -/
theorem witness_label : encodeLabel 0x00400014 0x0040000C = some 0xFFFD#16 ∧
    encodeLabel 0x00400000 0x00420000 = some 0x7FFF#16 ∧ encodeLabel 0x00420000 0x00400004 = some 0x8000#16 := by decide
theorem witness_no_branch : (∃ t, exec (.gain 5 6 7) (start []) = .next t) ∧
    (Instr.gain 5 6 7).operation ∉ [Operation.cklap, .otk, .hz] := ⟨⟨_, rfl⟩, by decide⟩
theorem witness_well_formed : (Instr.gain 5 6 7).wellFormed 8 = true ∧ (Instr.cool 31 0 0xFFFF8000#32).wellFormed 32 = true ∧
    (Instr.cool 31 0 0x00007FFF#32).wellFormed 32 = true := by decide
theorem witness_decodes : decode 0x53E07FFF#32 = some (.cool 0 31 0x00007FFF#32) := by decide
theorem witness_two_rows : ∃ a ∈ enc, ∃ b ∈ enc, a ≠ b :=
  ⟨_, List.mem_cons_self, _, List.mem_cons_of_mem _ List.mem_cons_self, by decide⟩
theorem witness_template : enc.all (fun d => decide (d.template.length = 32)) = true ∧
    (readTemplate "001011 00000 ddddd iiiiiiiiiiiiiiii".toList).isSome = true := by decide
theorem witness_register_out_of_range : (matchWord enc 0x00C72801#32).map Descriptor.semantic = some .gain ∧
    (∃ r ∈ (operandsOf .gain 0x00C72801#32).regs, 7 ≤ r.val) ∧ decodeIn enc 8 0x00C72801#32 = some (.gain 5 6 7) := by decide
theorem witness_immediate_ends : encodeImm 65535 = some 0xFFFF#16 ∧ encodeImm (-32768) = some 0x8000#16 ∧
    encodeImm 65536 = none := by decide
theorem witness_register_refused : ∃ e ∈ encR.take 1, ∃ w, gainFree.matchesWord w = true ∧ e.matchesWord w = true :=
  ⟨_, List.mem_cons_self, 1#32, by decide, by decide⟩
theorem witness_collision_free : collisionFree enc ∧ collisionFree ([] : List Descriptor) := by decide
theorem witness_register_added (d : Descriptor) :
    ¬ ∃ e ∈ ([] : List Descriptor), ∃ w, d.matchesWord w = true ∧ e.matchesWord w = true := by simp
theorem witness_other_order : enc.reverse.Perm enc := List.reverse_perm enc
theorem witness_population : State.reset.status = .running ∧ State.reset.phase = .population ∧
    State.reset.pending = enc ∧ State.reset.pending.length = 20 := by decide
theorem witness_step_runs : (about (start []) 0x00C72801).Presents 0x00C72801#32 ∧
    decodeIn (about (start []) 0x00C72801).table (about (start []) 0x00C72801).params.nregs 0x00C72801#32 = some (.gain 5 6 7) ∧
    (about (start []) 0x00C72801).table = enc ∧ (about (start []) 0x00C72801).params.nregs = 32 ∧
    decode 0x00C72801#32 = some (.gain 5 6 7) := ⟨about_presents, by decide, rfl, rfl, by decide⟩
theorem witness_undecodable : (about (start []) 0).Presents 0#32 ∧ decodeIn (about (start []) 0).table 32 0#32 = none ∧
    (about (start []) 0).table = enc ∧ (about (start []) 0).params.nregs = 32 ∧ decode 0#32 = none :=
  ⟨⟨rfl, rfl, 0, by decide, rfl⟩, by decide, rfl, rfl, by decide⟩

/-- The run phase with an empty program: `pc` is the end. -/
def atEnd : State := { State.reset with table := enc, pending := [], phase := .run }

theorem witness_halt : atEnd.status = .running ∧ atEnd.phase = .run ∧ atEnd.pc.toNat = 0x00400000 + 4 * atEnd.prog.length ∧
    ∃ t, step atEnd = .next t ∧ t.status = .halted := ⟨rfl, rfl, by decide, _, rfl, rfl⟩
theorem witness_wild_fetch : (0x00400002#32).toNat % 4 ≠ 0 ∧ (0x003FFFFC#32).toNat < 0x00400000 ∧
    0x00400000 + 4 * atEnd.prog.length < (0x00400004#32).toNat ∧
    ∃ t, step { atEnd with pc := 0x00400004#32 } = .next t ∧ t.status = .faulted (.fetch 0x00400004#32) :=
  ⟨by decide, by decide, by decide, _, rfl, rfl⟩
theorem witness_stopped : ({ atEnd with status := .halted } : State).status = .halted ∧
    ({ atEnd with status := .faulted (.decode 0#32) } : State).status = .faulted (.decode 0#32) := ⟨rfl, rfl⟩
theorem witness_fault_step : ∃ t, step (about (start []) 0) = .next t ∧ t.status = .faulted (.decode 0#32) :=
  ⟨_, rfl, by decide⟩
theorem witness_never_faults : (∃ t, exec (.lup 9) (start []) = .next t) ∧
    (Instr.lup 9).operation ∉ [Operation.split, .gre, .dr] ∧ (Instr.lup 9).operation ≠ .gre := ⟨⟨_, rfl⟩, by decide, by decide⟩
theorem witness_store_reads : ∃ t, exec (.gre 9 16 0#32) (start [(16, 0x10010000#32)]) = .next t ∧
    (start [(16, 0x10010000#32)]).effectiveAddress 16 0#32 = 0x10010000#32 := ⟨_, rfl, by decide⟩
theorem witness_store_misaligned : ∃ t, exec (.gre 9 16 2#32) (start [(16, 0x10010000#32)]) = .next t ∧
    (start [(16, 0x10010000#32)]).effectiveAddress 16 2#32 = 0x10010002#32 ∧ (0x10010002#32).toNat % 4 ≠ 0 :=
  ⟨_, rfl, by decide, by decide⟩
/-- Two running states that agree on registers, memory and parameters and on nothing more. -/
theorem witness_same_adapters : State.reset.params = ({ atEnd with pc := 0#32, prog := [1#32] } : State).params ∧
    State.reset.regs = ({ atEnd with pc := 0#32, prog := [1#32] } : State).regs ∧
    State.reset.mem = ({ atEnd with pc := 0#32, prog := [1#32] } : State).mem ∧
    State.reset.status = .running ∧ atEnd.status = .running := ⟨rfl, rfl, rfl, rfl, rfl⟩
theorem witness_unit_results :
    (execute (.gain 5 6 7) 0x00C72801#32 (start [])).result = .ok none ∧
    (execute (.otk 9 10 1#32) 0x39490001#32 (start [(9, 1#32)])).result = .ok (some 1#32) ∧
    (execute (.split 4 5 6) 0x00A6200A#32 (start [])).result = .arithmeticFault 0x00A6200A#32 ∧
    (execute (.dr 10 16 4#32) 0x220A0004#32 (start [])).result = .memoryFault 0x220A0004#32 4#32 ∧
    decodeIn (about (start []) 0).table 32 0x00A6200A#32 = some (.split 4 5 6) ∧
    decodeIn (about (start []) 0).table 32 0#32 = none := by decide
theorem witness_legal_step : (about (start [(9, 1#32)]) 0x0000480C).Legal ∧
    ∃ t, step (about (start [(9, 1#32)]) 0x0000480C) = .next t :=
  ⟨⟨by decide, by decide, fun _ => rfl, fun h => by simp [about, start, State.withFetchWord, State.placeWord] at h; revert h; decide,
    by decide, by decide, by decide⟩, _, rfl⟩
theorem witness_register_modes : (start []).params.reg0 = .ordinary ∧ (wired []).params.reg0 = .hardwiredZero ∧ (5 : Reg) ≠ 0 ∧
    (6 : Reg) ≠ 5 := by decide

end Sys2Proof.Tests
end

section
/-! PROOFS. The statements of 10_state.md: the register file, what no instruction changes, reset, and legal states. -/

namespace Sys2Proof

open Machine (collisionFree)

/-! ### Registration (R68, R69) -/

/-- One registration, refused or not, said once. -/
theorem registerKeep_eq (t : List Descriptor) (d : Descriptor) :
    registerKeep t d = if t.any (collides d) then t else t ++ [d] := by
  unfold registerKeep register
  cases t.any (collides d) <;> rfl

/-- R69: registration never makes two descriptors of the table collide. -/
theorem registerKeep_collisionFree {t : List Descriptor} (d : Descriptor) (h : collisionFree t) :
    collisionFree (registerKeep t d) := by
  rw [registerKeep_eq]
  split
  case isTrue => exact h
  case isFalse hd =>
    have hfree : ∀ e ∈ t, collides e d = false := by simpa [collides_comm d] using hd
    exact List.pairwise_append.2 ⟨h, List.pairwise_singleton _ d, by simpa using hfree⟩

end Sys2Proof

namespace Sys2Proof.Machine

/-! ### `exec` inverted -/

/-- What an instruction's next state is: REF's reaction to some result, after the instruction's writes. -/
theorem exec_next {i : Instr} {s t : State} (h : exec i s = .next t) :
    ∃ s' r, Effect s s' ∧ t = s'.react r := by
  rcases exec_cases i s with ⟨s', b, he, h'⟩ | h' | ⟨a, h'⟩ <;> rw [h'] at h <;> cases h
  · exact ⟨s', _, he, rfl⟩
  · exact ⟨s, _, .nothing, rfl⟩
  · exact ⟨s, _, .nothing, rfl⟩

/-! ### `pc` stays a multiple of 4 (R22, R116) -/

theorem fallThrough_aligned {pc : Word} (h : unsigned pc % 4 = 0) : unsigned (pc + 4#32) % 4 = 0 := by
  simp only [unsigned, BitVec.toNat_add, BitVec.toNat_ofNat] at h ⊢
  omega

theorem branchTarget_aligned {pc : Word} (disp : Word) (h : unsigned pc % 4 = 0) :
    unsigned (branchTarget pc disp) % 4 = 0 := by
  simp only [branchTarget_eq, unsigned, BitVec.toNat_add, BitVec.toNat_mul, BitVec.toNat_ofNat] at h ⊢
  omega

theorem react_pcAligned {s : State} (r : ExecutionResult) (h : unsigned s.pc % 4 = 0) :
    unsigned (s.react r).pc % 4 = 0 := by
  rcases r with (_ | disp) | _ | _
  · exact fallThrough_aligned h
  · exact branchTarget_aligned disp h
  · exact h
  · exact h

/-! ### Legal states are kept -/

/-- An instruction's writes keep a state legal. -/
theorem Effect.legal {s t : State} (he : Effect s t) (h : s.Legal) : t.Legal where
  params := he.params ▸ h.params
  table := he.table ▸ h.table
  registered := by rw [he.phase, he.pending]; exact h.registered
  reg0 := by rw [he.params]; exact fun hp => he.reg0 hp (h.reg0 hp)
  memForm := he.memForm h.memForm
  memWhere := he.memWhere h.memWhere
  pcAligned := he.pc ▸ h.pcAligned

namespace State.Legal
variable {s : State}

/-- Legality says nothing about the status, so halting and faulting keep it. -/
theorem withStatus (h : s.Legal) (st : Status) : ({ s with status := st } : State).Legal :=
  ⟨h.params, h.table, h.registered, h.reg0, h.memForm, h.memWhere, h.pcAligned⟩

theorem react (h : s.Legal) (r : ExecutionResult) : (s.react r).Legal where
  params := by simpa using h.params
  table := by simpa using h.table
  registered := by simpa using h.registered
  reg0 := by simpa using h.reg0
  memForm := by simpa using h.memForm
  memWhere := by simpa using h.memWhere
  pcAligned := react_pcAligned r h.pcAligned

theorem registerNext (h : s.Legal) : s.registerNext.Legal := by
  unfold State.registerNext
  split
  case h_1 hp => exact ⟨h.params, h.table, fun _ => hp, h.reg0, h.memForm, h.memWhere, h.pcAligned⟩
  case h_2 d rest hp =>
    refine ⟨h.params, registerKeep_collisionFree d h.table, ?_, h.reg0, h.memForm, h.memWhere, h.pcAligned⟩
    cases rest <;> simp

theorem exec {i : Instr} {t : State} (h : s.Legal) (he : exec i s = .next t) : t.Legal := by
  obtain ⟨s', r, hw, rfl⟩ := exec_next he
  exact (hw.legal h).react r

end State.Legal

/-- Settles O50: one case per kind of step, each of which keeps legality. -/
theorem stepKeepsStatesLegal : Obligations.StepKeepsStatesLegal := by
  intro s t h hstep
  obtain ⟨-, ⟨-, rfl⟩ | ⟨-, -, rfl⟩ | ⟨-, -, -, rfl⟩ | ⟨-, -, w, -, -, rfl⟩ | ⟨-, -, w, i, -, -, he⟩⟩ :=
    step_cases hstep
  · exact h.registerNext
  · exact h.withStatus .halted
  · exact h.withStatus (.faulted (.fetch s.pc))
  · exact h.withStatus (.faulted (.decode w))
  · exact h.exec he

/-- Settles O47: neither an instruction's writes nor REF's reaction touch any of the five. -/
theorem noInstructionChangesTableOrProgram : Obligations.NoInstructionChangesTableOrProgram := by
  intro i s t h
  obtain ⟨s', r, he, rfl⟩ := exec_next h
  simp [he.table, he.phase, he.pending, he.prog, he.params]

/-! ### Reset -/

/-- Settles O51: nothing is registered or listed yet, register 0 is ordinary, and `textBase` is a multiple of 4. -/
theorem resetIsLegal : Obligations.ResetIsLegal where
  params := by decide
  table := List.Pairwise.nil
  registered := nofun
  reg0 := nofun
  memForm := ⟨List.Pairwise.nil, by simp [State.reset]⟩
  memWhere := by simp [State.reset]
  pcAligned := by decide

/-- Settles O52: the four values stand in the definition of reset. -/
theorem resetStartsAtTextBase : Obligations.ResetStartsAtTextBase :=
  ⟨rfl, rfl, rfl, rfl⟩

/-! ### Register File -/

theorem readReg_writeReg_of_takesWrite {s : State} {r : Reg} (v : Word) (h : s.TakesWrite r) :
    (s.writeReg r v).readReg r = v :=
  (wrote_writeReg s r v).1 h

theorem readReg_of_wired {s : State} {r : Reg} (h : s.reg0Wired r = true) : s.readReg r = 0#32 := if_pos h

theorem writeReg_of_wired {s : State} {r : Reg} (v : Word) (h : s.reg0Wired r = true) : s.writeReg r v = s := if_pos h

/-- Settles O53: a write reads back unless it names a hardwired register 0, which reads 0 and discards it. -/
theorem registerFileKeepsItsContract : Obligations.RegisterFileKeepsItsContract := by
  intro s r x v
  refine ⟨readReg_writeReg_other s r x v, fun hp => ?_, fun hr => ?_, fun hp => ?_⟩
  · exact readReg_writeReg_of_takesWrite v (by simp [State.TakesWrite, hp])
  · exact readReg_writeReg_of_takesWrite v (by simp [State.TakesWrite, hr])
  · have hw : s.reg0Wired 0 = true := by simp [State.reg0Wired, hp]
    exact ⟨readReg_of_wired hw, writeReg_of_wired v hw⟩

end Sys2Proof.Machine
end

section
/-! PROOFS. The statements of 20_memory.md: the Memory Model contract, REF's data window, and what an instruction does to
memory. -/

namespace Sys2Proof.Machine

/-! ### Memory Model (R33, R34) -/

/-- Two different aligned words do not overlap. -/
theorem aligned_words_disjoint {a b : Word} (ha : unsigned a % 4 = 0) (hb : unsigned b % 4 = 0) (h : b ≠ a) :
    unsigned b + 4 ≤ unsigned a ∨ unsigned a + 4 ≤ unsigned b := by
  have hne : unsigned b ≠ unsigned a := fun e => h (BitVec.eq_of_toNat_eq e)
  omega

/-- A store at an accepted address leaves the word at every other accepted address alone. -/
theorem readWord_writeWord_of_accepts {p : Params} (m : Memory) {a b : Word} (v : Word) (ha : accepts p a = true)
    (hb : accepts p b = true) (h : b ≠ a) :
    Memory.readWord (Memory.writeWord m (unsigned a) v) (unsigned b) = Memory.readWord m (unsigned b) :=
  readWord_writeWord_other m v
    (aligned_words_disjoint ((accepts_iff p a).1 ha).1 ((accepts_iff p b).1 hb).1 h)

section SetWord
variable {s t : State} {a v : Word}

/-- The word just stored is read back. -/
theorem getWord_setWord_same (hm : Memory.wf s.mem) (h : s.setWord a v = some t) : t.getWord a = some v := by
  obtain ⟨ha, rfl⟩ := setWord_eq_some.1 h
  exact getWord_eq_some.2 ⟨ha, (readWord_writeWord_same _ v hm).symm⟩

/-- At every other address `getWord` answers, or refuses, as before. -/
theorem getWord_setWord_other {b : Word} (h : s.setWord a v = some t) (hne : b ≠ a) : t.getWord b = s.getWord b := by
  obtain ⟨ha, rfl⟩ := setWord_eq_some.1 h
  unfold State.getWord
  split
  case isTrue hb => rw [readWord_writeWord_of_accepts s.mem v ha hb hne]
  case isFalse => rfl

theorem memKeptOutside_setWord (h : s.setWord a v = some t) : MemKeptOutside a s t := by
  obtain ⟨-, rfl⟩ := setWord_eq_some.1 h
  exact fun c hc => readByte_writeWord_outside s.mem (unsigned a) v hc

end SetWord

/-- Settles O21: refusals from the address check; after a store, the word written by the bytes inside it and every other
word by disjointness of aligned words. -/
theorem memoryModelKeepsItsContract : Obligations.MemoryModelKeepsItsContract := by
  intro s a b v hm
  refine ⟨setWord_eq_none.trans (accepts_eq_false_iff _ a), getWord_eq_none.trans (accepts_eq_false_iff _ a),
    fun t h => ⟨getWord_setWord_same hm h, getWord_setWord_other h, memKeptOutside_setWord h, ?_⟩⟩
  obtain ⟨ha, rfl⟩ := setWord_eq_some.1 h
  exact ⟨writeWord_wf _ v hm, rfl, rfl, (Effect.store a v ha).hostKept⟩

/-! ### `gre` and `dr` by the Memory Model's answer (R105, R106) -/

section LoadStore
variable {s : State} {a : Word} (x rs : Reg) (simm : Word) (ha : s.effectiveAddress rs simm = a)
include ha

theorem exec_gre_of_setWord {t : State} (h : s.setWord a (s.readReg x) = some t) :
    exec (.gre x rs simm) s = .next (t.react (.ok none)) := by
  subst ha
  simp only [exec, execGre, unitGre, h, finish]

theorem exec_gre_of_refused (h : accepts s.params a = false) :
    exec (.gre x rs simm) s = .next (s.takeFault (.memory s.currentWord a)) := by
  subst ha
  simp only [exec, execGre, unitGre, setWord_eq_none.2 h, finish, react_memory]

theorem exec_dr_of_refused (h : accepts s.params a = false) :
    exec (.dr x rs simm) s = .next (s.takeFault (.memory s.currentWord a)) := by
  subst ha
  simp only [exec, execDr, unitDr, getWord_eq_none.2 h, finish, react_memory]

end LoadStore

/-! ### REF's data window (R36, R43) -/

theorem memValid_refWindows_iff {p : Params} (h : p.windows = refWindows) (a : Word) :
    memValid p a = true ↔ 0x10010000 ≤ unsigned a ∧ unsigned a < 0x10011000 := by
  simp [memValid, h, refWindows]

/-- Settles O22: an address below REF's one window is refused, and both instructions fault at a refused address. -/
theorem programAreaIsNotDataMemory : Obligations.ProgramAreaIsNotDataMemory := by
  intro x rs simm a s hw ha _ hlt
  have hinvalid : memValid s.params a = false := Bool.eq_false_iff.2 fun hv =>
    Nat.not_le_of_lt hlt ((memValid_refWindows_iff hw a).1 hv).1
  have hrefused : accepts s.params a = false := (accepts_eq_false_iff _ a).2 (.inr hinvalid)
  exact ⟨⟨_, exec_gre_of_refused x rs simm ha hrefused⟩, ⟨_, exec_dr_of_refused x rs simm ha hrefused⟩⟩

/-! ### What an instruction does to memory (R39) -/

/-- The unit writes memory for `gre` alone. -/
theorem execute_mem_of_ne_gre {i : Instr} (w : Word) (s : State) (h : i.operation ≠ .gre) :
    (execute i w s).state.mem = s.mem := by
  cases i with
  | gre => exact absurd rfl h
  | cklap | otk | hz => rfl
  | gain | lose | nos | turbo | lup | put | fuel | cool | weld | merge | vs | skid => exact writeReg_mem ..
  | pit => exact (writeReg_mem ..).trans (writeReg_mem ..)
  | hot =>
    simp only [execute, unitHot]
    split
    · exact (writeReg_mem ..).trans (writeReg_mem ..)
    · exact writeReg_mem ..
  | split =>
    simp only [execute, unitSplit]
    split
    · rfl
    · exact writeReg_mem ..
  | dr =>
    simp only [execute, unitDr]
    split
    · exact writeReg_mem ..
    · rfl

theorem exec_mem_of_ne_gre {i : Instr} {s t : State} (h : exec i s = .next t) (hi : i.operation ≠ .gre) :
    t.mem = s.mem := by
  rw [exec_eq_finish] at h
  cases h
  rw [react_mem, execute_mem_of_ne_gre _ s hi]

/-- Everything `gre` can do to memory: the store at its effective address where it is accepted, nothing where it is
refused. -/
theorem exec_gre_mem {rt rs : Reg} {simm a : Word} {s t : State} (ha : s.effectiveAddress rs simm = a)
    (h : exec (.gre rt rs simm) s = .next t) :
    (accepts s.params a = true ∧ t.mem = Memory.writeWord s.mem (unsigned a) (s.readReg rt)) ∨
      (accepts s.params a = false ∧ t.mem = s.mem) := by
  cases hacc : accepts s.params a with
  | true =>
    rw [exec_gre_of_setWord rt rs simm ha (setWord_eq_some.2 ⟨hacc, rfl⟩)] at h
    cases h
    exact .inl ⟨rfl, rfl⟩
  | false =>
    rw [exec_gre_of_refused rt rs simm ha hacc] at h
    cases h
    exact .inr ⟨rfl, rfl⟩

/-- Settles O48: no other instruction writes memory, and the store of a `gre` is aligned and writes one word. -/
theorem onlyGreChangesMemory : Obligations.OnlyGreChangesMemory := by
  refine ⟨fun i s t h hi => exec_mem_of_ne_gre h hi, fun rt rs simm a s t ha h => ?_⟩
  obtain ⟨hacc, hmem⟩ | ⟨-, hmem⟩ := exec_gre_mem ha h
  · refine ⟨fun c hc => ?_, fun hmis => absurd ((accepts_iff _ a).1 hacc).1 hmis⟩
    rw [hmem, readByte_writeWord_outside _ _ _ hc]
  · exact ⟨fun c _ => by rw [hmem], fun _ c => by rw [hmem]⟩

end Sys2Proof.Machine
end

section
/-! PROOFS. The statements of 30_encoding.md: the two round trips of encoder and decoder, the illegal words, sign extension,
the fields of immediates and labels, and template strings. -/

namespace Sys2Proof

/-! ### The fixed bits of a row and the operand bits it leaves (R52 to R54) -/

/-- The bits in which an operation's operands stand (R52); every other bit of its words is fixed (R54). -/
def Operation.operandMask : Operation → Word
  | .gain | .lose | .weld | .merge | .vs | .nos | .split => 0x03FFF800#32
  | .turbo | .skid | .pit => 0x03E0F800#32
  | .lup => 0x0000F800#32
  | .put | .gre | .dr | .cklap | .otk | .hz | .hot | .cool => 0x03FFFFFF#32
  | .fuel => 0x001FFFFF#32

section Row
variable {d : Descriptor} (hd : d ∈ enc)
include hd

theorem not_mask_of_mem_enc : ~~~d.mask = d.semantic.operandMask := by
  revert d; decide

theorem matchBits_and_mask_of_mem_enc : d.matchBits &&& d.mask = d.matchBits := by
  revert d; decide

theorem matchOf_semantic_of_mem_enc : matchOf d.semantic = d.matchBits := by
  revert d; decide

end Row

/-! ### Bits of `sext_16` (R50) -/

theorem getLsbD_sext16 (v : BitVec 16) {i : Nat} (hi : i < 32) :
    (sext16 v).getLsbD i = if i < 16 then v.getLsbD i else v.getLsbD 15 := by
  rw [sext16_eq_signExtend, BitVec.getLsbD_signExtend, BitVec.msb_eq_getLsbD_last]
  simp [hi]

theorem extract_sext16 (v : BitVec 16) : (sext16 v).extractLsb' 0 16 = v := by
  apply BitVec.eq_of_getLsbD_eq
  intro i hi
  rw [BitVec.getLsbD_extractLsb', Nat.zero_add, getLsbD_sext16 v (by omega)]
  simp [hi]

/-! ### Reading operands and placing them again (R46, R52, R65) -/

/-- A field extracted and shifted back to its place is the word with every other bit cleared. -/
theorem setWidth_extract_shiftLeft (w : Word) (lo n : Nat) :
    (w.extractLsb' lo n).setWidth 32 <<< lo = w &&& (BitVec.allOnes n).setWidth 32 <<< lo := by
  apply BitVec.eq_of_getLsbD_eq
  intro i hi
  simp only [BitVec.getLsbD_shiftLeft, BitVec.getLsbD_setWidth, BitVec.getLsbD_extractLsb', BitVec.getLsbD_and,
    BitVec.getLsbD_allOnes]
  by_cases hlo : i < lo
  · simp [hlo]
  · rw [Nat.add_sub_cancel' (Nat.le_of_not_lt hlo)]
    cases w.getLsbD i <;> simp

section Placed
variable (o : Operation) (w : Word)

theorem placeReg_faField : placeReg (faField w) 21 = w &&& 0x03E00000#32 := setWidth_extract_shiftLeft w 21 5

theorem placeReg_fbField : placeReg (fbField w) 16 = w &&& 0x001F0000#32 := setWidth_extract_shiftLeft w 16 5

theorem placeReg_fcField : placeReg (fcField w) 11 = w &&& 0x0000F800#32 := setWidth_extract_shiftLeft w 11 5

theorem placeImm_sext16_immField : placeImm (sext16 (immField w)) = w &&& 0x0000FFFF#32 := by
  calc placeImm (sext16 (immField w))
      = ((sext16 (immField w)).extractLsb' 0 16).setWidth 32 <<< 0 := (setWidth_extract_shiftLeft _ 0 16).symm
    _ = (w.extractLsb' 0 16).setWidth 32 <<< 0 := by rw [extract_sext16, immField]
    _ = w &&& 0x0000FFFF#32 := setWidth_extract_shiftLeft w 0 16

/-- The operands read from a word, placed again, are the word's operand bits. -/
theorem placed_operandsOf : placed (operandsOf o w) = w &&& o.operandMask := by
  cases o <;>
    simp only [operandsOf, placed, placeReg_faField, placeReg_fbField, placeReg_fcField, placeImm_sext16_immField,
      ← BitVec.and_or_distrib_left] <;> rfl

@[simp] theorem operation_operandsOf : (operandsOf o w).operation = o := by
  cases o <;> rfl

theorem imm_operandsOf : (operandsOf o w).imm = if o.hasImm then some (sext16 (immField w)) else none := by
  cases o <;> rfl

theorem immFits_operandsOf : (operandsOf o w).immFits = true := by
  unfold Instr.immFits
  rw [imm_operandsOf]
  cases o.hasImm with
  | false => rfl
  | true => simpa using sext16_fits (immField w)

end Placed

/-- The operands read from an instruction's own word are its operands: the laws of `OperandFields`, together. -/
theorem operandsOf_encode : (i : Instr) → i.immFits = true → operandsOf i.operation (encode i) = i
  | .gain .., h => Laws.OperandFields.gain _ _ _ h
  | .lose .., h => Laws.OperandFields.lose _ _ _ h
  | .put .., h => Laws.OperandFields.put _ _ _ h
  | .weld .., h => Laws.OperandFields.weld _ _ _ h
  | .merge .., h => Laws.OperandFields.merge _ _ _ h
  | .vs .., h => Laws.OperandFields.vs _ _ _ h
  | .gre .., h => Laws.OperandFields.gre _ _ _ h
  | .dr .., h => Laws.OperandFields.dr _ _ _ h
  | .nos .., h => Laws.OperandFields.nos _ _ _ h
  | .split .., h => Laws.OperandFields.split _ _ _ h
  | .fuel .., h => Laws.OperandFields.fuel _ _ h
  | .lup .., h => Laws.OperandFields.lup _ h
  | .cklap .., h => Laws.OperandFields.cklap _ _ _ h
  | .otk .., h => Laws.OperandFields.otk _ _ _ h
  | .turbo .., h => Laws.OperandFields.turbo _ _ h
  | .skid .., h => Laws.OperandFields.skid _ _ h
  | .pit .., h => Laws.OperandFields.pit _ _ h
  | .hz .., h => Laws.OperandFields.hz _ _ _ h
  | .hot .., h => Laws.OperandFields.hot _ _ _ h
  | .cool .., h => Laws.OperandFields.cool _ _ _ h

/-! ### The round trips (R65) -/

/-- What decodes with the default table, and to what, said once. -/
theorem decode_eq_some_iff {w : Word} {i : Instr} :
    decode w = some i ↔ ∃ d ∈ enc, d.matchesWord w = true ∧ operandsOf d.semantic w = i := by
  constructor
  · intro h
    unfold decode decodeIn at h
    split at h
    case h_1 => cases h
    case h_2 d hm =>
      obtain ⟨hd, hw⟩ := (matchWord_eq_some_iff enc_collisionFree).1 hm
      exact ⟨d, hd, hw, by simpa only [regsValid_32, if_true, Option.some.injEq] using h⟩
  · rintro ⟨d, hd, hw, rfl⟩
    exact decode_of_row hd hw

section Encode
variable {i : Instr} {d : Descriptor} (hd : d ∈ enc)
include hd

/-- The placed operands touch no fixed bit of the instruction's row: they are operand bits of its own word. -/
theorem placed_and_mask (ho : d.semantic = i.operation) (hi : i.immFits = true) : placed i &&& d.mask = 0#32 := by
  have hplaced : placed i = encode i &&& ~~~d.mask := by
    calc placed i = placed (operandsOf i.operation (encode i)) := by rw [operandsOf_encode i hi]
      _ = encode i &&& ~~~d.mask := by rw [placed_operandsOf, not_mask_of_mem_enc hd, ho]
  rw [hplaced, BitVec.and_assoc, BitVec.not_and_self]
  exact BitVec.and_zero

theorem matchesWord_encode (ho : d.semantic = i.operation) (hi : i.immFits = true) :
    d.matchesWord (encode i) = true := by
  have hm : matchOf i.operation = d.matchBits := ho ▸ matchOf_semantic_of_mem_enc hd
  simp only [Descriptor.matchesWord, beq_iff_eq]
  calc encode i &&& d.mask
      = (d.matchBits &&& d.mask) ||| (placed i &&& d.mask) := by
        rw [encode, hm, BitVec.and_comm, BitVec.and_or_distrib_left, BitVec.and_comm, BitVec.and_comm (placed i)]
    _ = d.matchBits := by
        rw [matchBits_and_mask_of_mem_enc hd, placed_and_mask hd ho hi, BitVec.or_zero]

/-- A word that matches a row is its fixed bits with its operand bits, so it is encoded from what it reads as. -/
theorem encode_operandsOf {w : Word} (hw : d.matchesWord w = true) : encode (operandsOf d.semantic w) = w := by
  have hfixed : w &&& d.mask = d.matchBits := by simpa [Descriptor.matchesWord] using hw
  calc encode (operandsOf d.semantic w)
      = (w &&& d.mask) ||| (w &&& ~~~d.mask) := by
        rw [encode, operation_operandsOf, matchOf_semantic_of_mem_enc hd, placed_operandsOf, not_mask_of_mem_enc hd,
          hfixed]
    _ = w := by rw [← BitVec.and_or_distrib_left, BitVec.or_not_self, BitVec.and_allOnes]

end Encode

/-- Settles O29: the encoded word matches the row of its operation, and its operand fields read back. -/
theorem decodeOfEncodeIsIdentity : Obligations.DecodeOfEncodeIsIdentity := by
  intro nregs i hwf
  obtain ⟨hregs, himm⟩ : i.regsValid nregs = true ∧ i.immFits = true := by
    simpa only [Instr.wellFormed, Bool.and_eq_true] using hwf
  obtain ⟨d, hd, ho, -⟩ := exists_row i.operation
  have hm : matchWord enc (encode i) = some d :=
    (matchWord_eq_some_iff enc_collisionFree).2 ⟨hd, matchesWord_encode hd ho himm⟩
  simp only [decodeIn, hm, ho, operandsOf_encode i himm, hregs, if_true]

/-- Settles O30: a word that decodes matches a row, and that row's fixed bits with the word's operand bits are the
word. -/
theorem encodeOfDecodeIsIdentity : Obligations.EncodeOfDecodeIsIdentity := by
  intro w i h
  obtain ⟨d, hd, hw, rfl⟩ := decode_eq_some_iff.1 h
  refine ⟨encode_operandsOf hd hw, ?_⟩
  rw [Instr.wellFormed, regsValid_32, immFits_operandsOf, Bool.and_self]

/-! ### Labels and immediates (R62, R63) -/

/-- The 16-bit field of a number in the signed range, sign-extended, is the number. -/
theorem sext16_ofInt {q : Int} (h : -32768 ≤ q ∧ q ≤ 32767) : sext16 (BitVec.ofInt 16 q) = BitVec.ofInt 32 q := by
  have hlow : (BitVec.ofInt 32 q).setWidth 16 = BitVec.ofInt 16 q := by
    apply BitVec.eq_of_toNat_eq
    simp only [BitVec.toNat_setWidth, BitVec.toNat_ofInt]
    omega
  have hfits : fits16 (BitVec.ofInt 32 q) := by
    simp only [fits16, signed, BitVec.toInt_ofInt, Int.bmod_def]
    omega
  rw [← hlow, sext16_low hfits]

/-- Settles O26: the quarter fits the field, comes back by sign extension, and four times it is the distance. -/
theorem branchFieldReachesItsLabel : Obligations.BranchFieldReachesItsLabel := by
  intro a l
  unfold encodeLabel
  split
  case isFalse h => simpa using h
  case isTrue h =>
    refine ⟨by simpa using h, ?_⟩
    rintro v ⟨⟩
    obtain ⟨h4, hrange⟩ := h
    refine ⟨by simp only [BitVec.toNat_ofInt]; omega, ?_⟩
    rw [sext16_ofInt hrange, Machine.branchTarget_eq]
    apply BitVec.eq_of_toNat_eq
    simp only [BitVec.toNat_add, BitVec.toNat_mul, BitVec.toNat_ofNat, BitVec.toNat_ofInt]
    omega

/-- Settles O35: `encodeImm` tests just that range, and its field is the number modulo 2^16. -/
theorem immediateFieldHoldsLowBits : Obligations.ImmediateFieldHoldsLowBits := by
  intro n
  unfold encodeImm
  split
  case isFalse h => simpa using h
  case isTrue h =>
    refine ⟨by simpa using h, ?_⟩
    rintro v ⟨⟩
    simp only [BitVec.toNat_ofInt]
    omega

/-! ### Words by their fields (R46, R53) -/

/-- Words agree when their six R_FORMAT fields do. -/
theorem eq_iff_fields {w v : Word} : w = v ↔ opField w = opField v ∧ w.extractLsb' 21 5 = v.extractLsb' 21 5 ∧
    w.extractLsb' 16 5 = v.extractLsb' 16 5 ∧ w.extractLsb' 11 5 = v.extractLsb' 11 5 ∧ fzField w = fzField v ∧
    fnField w = fnField v := by
  refine ⟨by rintro rfl; simp, fun h => BitVec.eq_of_toNat_eq ?_⟩
  simp only [opField, fzField, fnField, ← BitVec.toNat_inj, BitVec.extractLsb'_toNat, Nat.shiftRight_eq_div_pow] at h
  omega

/-- The test `w & mask = match` of R53, field by field. -/
theorem and_eq_iff_fields {w mask m : Word} : w &&& mask = m ↔
    opField w &&& opField mask = opField m ∧
    w.extractLsb' 21 5 &&& mask.extractLsb' 21 5 = m.extractLsb' 21 5 ∧
    w.extractLsb' 16 5 &&& mask.extractLsb' 16 5 = m.extractLsb' 16 5 ∧
    w.extractLsb' 11 5 &&& mask.extractLsb' 11 5 = m.extractLsb' 11 5 ∧
    fzField w &&& fzField mask = fzField m ∧ fnField w &&& fnField mask = fnField m := by
  rw [eq_iff_fields]
  simp only [opField, fzField, fnField, BitVec.extractLsb'_and]

theorem faField_eq_zero_iff {w : Word} : faField w = 0 ↔ w.extractLsb' 21 5 = 0#5 := BitVec.toFin_inj (y := 0#5)

theorem fbField_eq_zero_iff {w : Word} : fbField w = 0 ↔ w.extractLsb' 16 5 = 0#5 := BitVec.toFin_inj (y := 0#5)

/-- A number in the `fn` field, every other field 0. -/
theorem fields_setWidth (k : BitVec 6) : opField (k.setWidth 32) = 0 ∧ (k.setWidth 32).extractLsb' 21 5 = 0 ∧
    (k.setWidth 32).extractLsb' 16 5 = 0 ∧ (k.setWidth 32).extractLsb' 11 5 = 0 ∧ fzField (k.setWidth 32) = 0 ∧
    fnField (k.setWidth 32) = k := by
  revert k; decide

/-- A number in the `op` field, every other field 0. -/
theorem fields_setWidth_shiftLeft (k : BitVec 6) : opField (k.setWidth 32 <<< 26) = k ∧
    (k.setWidth 32 <<< 26).extractLsb' 21 5 = 0 ∧ (k.setWidth 32 <<< 26).extractLsb' 16 5 = 0 ∧
    (k.setWidth 32 <<< 26).extractLsb' 11 5 = 0 ∧ fzField (k.setWidth 32 <<< 26) = 0 ∧
    fnField (k.setWidth 32 <<< 26) = 0 := by
  revert k; decide

theorem and_63 (k : BitVec 6) : k &&& 63#6 = k := BitVec.and_allOnes

theorem and_31 (k : BitVec 5) : k &&& 31#5 = k := BitVec.and_allOnes

section Masked
variable (w : Word) (k : BitVec 6)

/-! The five kinds of row of R54, each by the fields it fixes. -/

theorem and_threeRegMask_eq_iff :
    w &&& 0xFC0007FF#32 = k.setWidth 32 ↔ opField w = 0 ∧ fzField w = 0 ∧ fnField w = k := by
  obtain ⟨hop, ha, hb, hc, hz, hn⟩ := fields_setWidth k
  rw [and_eq_iff_fields, hop, ha, hb, hc, hz, hn]
  simp [opField, fzField, fnField, and_63, and_31]

theorem and_twoRegMask_eq_iff :
    w &&& 0xFC1F07FF#32 = k.setWidth 32 ↔ opField w = 0 ∧ fbField w = 0 ∧ fzField w = 0 ∧ fnField w = k := by
  obtain ⟨hop, ha, hb, hc, hz, hn⟩ := fields_setWidth k
  rw [and_eq_iff_fields, hop, ha, hb, hc, hz, hn, fbField_eq_zero_iff]
  simp [opField, fzField, fnField, and_63, and_31]

theorem and_oneRegMask_eq_iff : w &&& 0xFFFF07FF#32 = k.setWidth 32 ↔
    opField w = 0 ∧ faField w = 0 ∧ fbField w = 0 ∧ fzField w = 0 ∧ fnField w = k := by
  obtain ⟨hop, ha, hb, hc, hz, hn⟩ := fields_setWidth k
  rw [and_eq_iff_fields, hop, ha, hb, hc, hz, hn, faField_eq_zero_iff, fbField_eq_zero_iff]
  simp [opField, fzField, fnField, and_63, and_31]

theorem and_opMask_eq_iff : w &&& 0xFC000000#32 = k.setWidth 32 <<< 26 ↔ opField w = k := by
  obtain ⟨hop, ha, hb, hc, hz, hn⟩ := fields_setWidth_shiftLeft k
  rw [and_eq_iff_fields, hop, ha, hb, hc, hz, hn]
  simp [opField, fzField, fnField, and_63]

theorem and_opFaMask_eq_iff : w &&& 0xFFE00000#32 = k.setWidth 32 <<< 26 ↔ opField w = k ∧ faField w = 0 := by
  obtain ⟨hop, ha, hb, hc, hz, hn⟩ := fields_setWidth_shiftLeft k
  rw [and_eq_iff_fields, hop, ha, hb, hc, hz, hn, faField_eq_zero_iff]
  simp [opField, fzField, fnField, and_63, and_31]

end Masked

/-! ### Which words match a row (R54, R55) -/

/-- The R_FORMAT rows with three register operands, by `fn` (R54). -/
def threeRegRows : List (BitVec 6) := [1, 2, 4, 5, 6, 9, 10]

/-- The R_FORMAT rows with two register operands, by `fn` (R54). -/
def twoRegRows : List (BitVec 6) := [15, 16, 17]

/-- The rows with an immediate and two register operands, by `op` (R54): all but `fuel`, which is 11. -/
def immRows : List (BitVec 6) := [3, 7, 8, 13, 14, 18, 19, 20]

/-- The numbers of R55's `fn` list are those of the three kinds of R_FORMAT row; 12 is `lup`. -/
theorem mem_fnList_iff (fn : BitVec 6) : fn ∈ ([1, 2, 4, 5, 6, 9, 10, 12, 15, 16, 17] : List (BitVec 6)) ↔
    fn ∈ threeRegRows ∨ fn = 12 ∨ fn ∈ twoRegRows := by
  revert fn; decide

theorem rowKinds_disjoint (fn : BitVec 6) :
    (fn ∈ threeRegRows → fn ≠ 12 ∧ fn ∉ twoRegRows) ∧ (fn = 12 → fn ∉ twoRegRows) := by
  revert fn; decide

/-- The `mask` and `match` columns of the default table, in groups by kind of row. -/
theorem enc_columns_perm : (enc.map fun d => (d.mask, d.matchBits)).Perm
    (threeRegRows.map (fun k : BitVec 6 => (0xFC0007FF#32, k.setWidth 32)) ++
      ([12#6].map (fun k : BitVec 6 => (0xFFFF07FF#32, k.setWidth 32)) ++
      (twoRegRows.map (fun k : BitVec 6 => (0xFC1F07FF#32, k.setWidth 32)) ++
      (immRows.map (fun k : BitVec 6 => (0xFC000000#32, k.setWidth 32 <<< 26)) ++
      [11#6].map (fun k : BitVec 6 => (0xFFE00000#32, k.setWidth 32 <<< 26)))))) := by
  decide

/-- The words that match a row of the default table, by their fields. -/
theorem exists_row_matches_iff (w : Word) : (∃ d ∈ enc, d.matchesWord w = true) ↔
    (opField w = 0 ∧ fzField w = 0 ∧ (fnField w ∈ threeRegRows ∨ (fnField w = 12 ∧ faField w = 0 ∧ fbField w = 0) ∨
      (fnField w ∈ twoRegRows ∧ fbField w = 0))) ∨
    opField w ∈ immRows ∨ (opField w = 11 ∧ faField w = 0) := by
  have hcolumns : (∃ d ∈ enc, d.matchesWord w = true) ↔
      ∃ p ∈ enc.map (fun d => (d.mask, d.matchBits)), w &&& p.1 = p.2 := by
    simp [Descriptor.matchesWord]
  simp only [hcolumns, enc_columns_perm.mem_iff, List.mem_append, List.mem_map, or_and_right, exists_or,
    exists_exists_and_eq_and, and_threeRegMask_eq_iff, and_twoRegMask_eq_iff, and_oneRegMask_eq_iff, and_opMask_eq_iff,
    and_opFaMask_eq_iff]
  simp only [↓existsAndEq, BitVec.ofNat_eq_ofNat, and_true, true_and, List.mem_singleton]
  tauto

theorem decode_eq_none_iff {w : Word} : decode w = none ↔ ¬ ∃ d ∈ enc, d.matchesWord w = true := by
  constructor
  · rintro h ⟨d, hd, hw⟩
    rw [decode_of_row hd hw] at h
    cases h
  · refine fun h => Option.eq_none_iff_forall_ne_some.2 fun i hi => h ?_
    obtain ⟨d, hd, hw, -⟩ := decode_eq_some_iff.1 hi
    exact ⟨d, hd, hw⟩

/-- R55's four cases are the words that match no row: one split on `op` and, where it is 0, on the kind of `fn`. -/
theorem decode_eq_none_iff_listed (w : Word) : decode w = none ↔
    (opField w = 0 ∧ fnField w ∉ ([1, 2, 4, 5, 6, 9, 10, 12, 15, 16, 17] : List (BitVec 6))) ∨
    (opField w = 0 ∧ fnField w ∈ ([1, 2, 4, 5, 6, 9, 10, 12, 15, 16, 17] : List (BitVec 6)) ∧
      (fzField w ≠ 0 ∨ (fnField w ∈ twoRegRows ∧ fbField w ≠ 0) ∨
        (fnField w = 12 ∧ (faField w ≠ 0 ∨ fbField w ≠ 0)))) ∨
    (opField w = 11 ∧ faField w ≠ 0) ∨
    opField w ∉ ([0, 3, 7, 8, 11, 13, 14, 18, 19, 20] : List (BitVec 6)) := by
  rw [decode_eq_none_iff, exists_row_matches_iff, mem_fnList_iff]
  by_cases hop : opField w = 0#6
  · have hkinds := rowKinds_disjoint (fnField w)
    simp only [hop, immRows, BitVec.ofNat_eq_ofNat, List.mem_cons, List.not_mem_nil, BitVec.reduceEq, true_and, false_and,
      or_self, or_false, not_true_eq_false]
    tauto
  · by_cases hop11 : opField w = 11#6
    · simp [hop11, immRows]
    · simp [hop, hop11, immRows]

end Sys2Proof

namespace Sys2Proof.Machine

/-- A presented word that does not decode is the step's `DecodeFault` (R119, R143). -/
theorem step_of_presents_undecodable {s : State} {w : Word} (h : s.Presents w)
    (hd : decodeIn s.table s.params.nregs w = none) : step s = .next (s.takeFault (.decode w)) := by
  obtain ⟨hfetch, hend⟩ := fetchWord_of_presents h
  simp [step, State.frontEnd, h.running, h.run, State.fetchDecode, hend, hfetch, hd]

/-- Settles O31: R55's cases are the words that match no row, and such a word is the step's `DecodeFault`. -/
theorem illegalWordsAreExactlyListed : Obligations.IllegalWordsAreExactlyListed := by
  refine ⟨decode_eq_none_iff_listed, fun s w hw ht hn hd => ?_⟩
  exact step_of_presents_undecodable hw (by rwa [ht, hn])

end Sys2Proof.Machine

namespace Sys2Proof

/-- Settles O32: the default table is collision-free, and a word that matched two rows would make them collide. -/
theorem noWordMatchesTwoRows : Obligations.NoWordMatchesTwoRows := by
  intro a ha b hb hne
  have : Std.Symm (fun a b : Descriptor => collides a b = false) := ⟨fun a b h => collides_comm a b ▸ h⟩
  have hfree : collides a b = false := enc_collisionFree.forall ha hb hne
  refine ⟨by simpa [collides] using hfree, fun w ⟨hwa, hwb⟩ => hne ?_⟩
  exact eq_of_mem_of_matches enc_collisionFree ha hb hwa hwb

/-! ### Sign extension (R50) -/

theorem sext16_eq_shifts (v : BitVec 16) : sext16 v = (v.setWidth 32 <<< 16).sshiftRight 16 := by
  apply BitVec.eq_of_getLsbD_eq
  intro i hi
  rw [getLsbD_sext16 v hi, BitVec.getLsbD_sshiftRight, BitVec.msb_eq_getLsbD_last]
  by_cases hlow : i < 16
  · simp [hlow, Nat.not_le.2 hi, show 16 + i < 32 by omega]
  · simp [hlow, Nat.not_le.2 hi, show ¬16 + i < 32 by omega]

theorem toInt_sext16 (v : BitVec 16) :
    (sext16 v).toInt = if v.toNat < 0x8000 then (v.toNat : Int) else (v.toNat : Int) - 0x10000 := by
  rw [sext16_eq_signExtend, BitVec.toInt_signExtend_of_le (by omega), BitVec.toInt_eq_toNat_cond]
  split <;> split <;> omega

/-- An immediate that a word decodes to is the sign extension of the word's 16-bit field (R75). -/
theorem imm_of_decode {w x : Word} {i : Instr} (h : decode w = some i) (hx : i.imm = some x) :
    x = sext16 (immField w) := by
  obtain ⟨d, -, -, rfl⟩ := decode_eq_some_iff.1 h
  rw [imm_operandsOf] at hx
  split at hx
  · exact (Option.some.inj hx).symm
  · cases hx

/-- Settles O33: by shifts, by cases and by bits, and from the operand table for the decoded immediates. -/
theorem signExtensionsAgree : Obligations.SignExtensionsAgree := by
  intro v
  refine ⟨sext16_eq_shifts v, toInt_sext16 v, fun i hi => ?_, fun i hi hi' => ?_, fun w x i h hx hv => ?_⟩
  · rw [getLsbD_sext16 v (by omega), if_pos hi]
  · rw [getLsbD_sext16 v hi', if_neg (by omega)]
  · rw [imm_of_decode h hx, hv]

/-! ### Template strings (R58) -/

theorem char_ne_space (c : TemplateChar) : c.char ≠ ' ' := by
  cases c <;> decide

theorem ofChar_eq_some_iff {x : Char} {c : TemplateChar} : TemplateChar.ofChar x = some c ↔ x = c.char := by
  constructor
  · intro h
    unfold TemplateChar.ofChar at h
    split_ifs at h <;> cases h <;> assumption
  · rintro rfl
    cases c <;> rfl

theorem mapM_ofChar_eq_some_iff {cs : List Char} {t : List TemplateChar} :
    cs.mapM TemplateChar.ofChar = some t ↔ cs = t.map TemplateChar.char := by
  induction cs generalizing t with
  | nil => cases t <;> simp
  | cons x cs ih => cases t <;> simp [Option.bind_eq_some_iff, ih, ofChar_eq_some_iff]

/-- The spaces between groups are all that `spaced` adds. -/
theorem filter_spaced (ns : List Nat) (cs : List Char) : (spaced ns cs).filter (· ≠ ' ') = cs.filter (· ≠ ' ') := by
  induction ns, cs using spaced.induct with
  | case1 => rfl
  | case2 => rfl
  | case3 n ns cs hns ih =>
    rw [spaced.eq_3 _ _ _ hns, List.filter_append, List.filter_cons_of_neg (by simp), ih, ← List.filter_append,
      List.take_append_drop]

theorem filter_templateChars (d : Descriptor) :
    d.templateChars.filter (· ≠ ' ') = d.template.map TemplateChar.char := by
  rw [Descriptor.templateChars, filter_spaced, List.filter_eq_self]
  simp [char_ne_space]

/-- What a reader accepts, and what it reads. -/
theorem readTemplate_eq_some_iff {cs : List Char} {t : List TemplateChar} :
    readTemplate cs = some t ↔ t.length = 32 ∧ cs.filter (· ≠ ' ') = t.map TemplateChar.char := by
  unfold readTemplate
  split
  case isTrue h =>
    rw [mapM_ofChar_eq_some_iff]
    refine ⟨fun ht => ⟨?_, ht⟩, And.right⟩
    rwa [ht, List.length_map] at h
  case isFalse h =>
    refine ⟨nofun, fun ⟨hlen, ht⟩ => absurd ?_ h⟩
    rw [ht, List.length_map, hlen]

/-- Settles O36: both halves are the reader's specification. -/
theorem templateStringReadsBack : Obligations.TemplateStringReadsBack :=
  ⟨fun d h => readTemplate_eq_some_iff.2 ⟨h, filter_templateChars d⟩, fun _ _ => readTemplate_eq_some_iff.1⟩

/-! ### Sample words (R65) -/

/-- Settles O28: the decoder run on the eight words. -/
theorem sampleWordsDecode : Obligations.SampleWordsDecode := by
  unfold Obligations.SampleWordsDecode
  decide

end Sys2Proof
end

section
/-! PROOFS. The statements of 40_dispatch.md: registration and its order, operand validation, what `execute` and `exec` can
answer and depend on, and the step as REF's reaction to the unit. -/

namespace Sys2Proof

open Machine (collisionFree)

/-! ### Collisions (R69) -/

/-- One character appended to a template keeps the fixed bits among the mask's. -/
theorem matchBit_land_maskBit (c : TemplateChar) {m k : Nat} (h : m &&& k = m) :
    (2 * m + c.matchBit) &&& (2 * k + c.maskBit) = 2 * m + c.matchBit := by
  have hbit (a b : Bool) : (2 * m + a.toNat) &&& (2 * k + b.toNat) = 2 * m + (a && b).toNat := by
    simpa only [Nat.bit_val, h] using Nat.land_bit a m b k
  cases c with
  | one => exact hbit true true
  | zero => exact hbit false true
  | s | t | d | i => exact hbit false false

theorem foldl_matchBit_land_maskBit (cs : List TemplateChar) {m k : Nat} (h : m &&& k = m) :
    cs.foldl (fun acc c => 2 * acc + c.matchBit) m &&& cs.foldl (fun acc c => 2 * acc + c.maskBit) k =
      cs.foldl (fun acc c => 2 * acc + c.matchBit) m := by
  induction cs generalizing m k with
  | nil => exact h
  | cons c cs ih => exact ih (matchBit_land_maskBit c h)

/-- The fixed ones of a descriptor stand at fixed positions, whatever its template (R53). -/
theorem matchBits_and_mask (d : Descriptor) : d.matchBits &&& d.mask = d.matchBits := by
  simp only [Descriptor.matchBits, Descriptor.mask, ← BitVec.ofNat_and]
  rw [foldl_matchBit_land_maskBit d.template (Nat.zero_and 0)]

/-- Where the fixed bits of two descriptors agree, their ones together make a word that matches the first. -/
theorem matchesWord_or_of_collides {a b : Descriptor} (h : collides a b = true) :
    a.matchesWord (a.matchBits ||| b.matchBits) = true := by
  simp only [collides, beq_iff_eq] at h
  simp only [Descriptor.matchesWord, beq_iff_eq]
  apply BitVec.eq_of_getLsbD_eq
  intro i _
  have hagree := congrArg (·.getLsbD i) h
  have ha := congrArg (·.getLsbD i) (matchBits_and_mask a)
  have hb := congrArg (·.getLsbD i) (matchBits_and_mask b)
  simp only [BitVec.getLsbD_and, BitVec.getLsbD_or, BitVec.getLsbD_xor, BitVec.getLsbD_zero] at hagree ha hb ⊢
  revert hagree ha hb
  cases a.matchBits.getLsbD i <;> cases b.matchBits.getLsbD i <;> cases a.mask.getLsbD i <;> simp

/-- R69: the test on fixed bits says exactly that some word matches both. -/
theorem collides_iff_exists_word {a b : Descriptor} :
    collides a b = true ↔ ∃ w, a.matchesWord w = true ∧ b.matchesWord w = true := by
  refine ⟨fun h => ⟨_, matchesWord_or_of_collides h, ?_⟩, fun ⟨w, ha, hb⟩ => collides_of_matches ha hb⟩
  rw [BitVec.or_comm]
  exact matchesWord_or_of_collides (collides_comm a b ▸ h)

theorem any_collides_iff {t : List Descriptor} {d : Descriptor} :
    t.any (collides d) = true ↔ ∃ e ∈ t, ∃ w, d.matchesWord w = true ∧ e.matchesWord w = true := by
  simp only [List.any_eq_true, collides_iff_exists_word]

/-- Settles O37: `register` tests for a collision with each entry, and a collision is a word that matches both. -/
theorem registerRefusesExactlyCollisions : Obligations.RegisterRefusesExactlyCollisions := by
  intro t d
  refine ⟨fun h => ?_, fun h => ?_, fun e => ?_, registerKeep_collisionFree d, enc_collisionFree⟩
  · have hany := any_collides_iff.2 h
    exact ⟨if_pos hany, by rw [registerKeep_eq, if_pos hany]⟩
  · have hany := mt any_collides_iff.1 h
    exact ⟨if_neg hany, by rw [registerKeep_eq, if_neg hany]⟩
  · rw [← collides_iff_exists_word, collides, beq_iff_eq]

/-! ### The order of registration (R70) -/

/-- Population adds every descriptor, in the order given, where none of them collides. -/
theorem populate_eq_append {t ds : List Descriptor} (h : collisionFree (t ++ ds)) : populate t ds = t ++ ds := by
  induction ds generalizing t with
  | nil => exact (List.append_nil t).symm
  | cons d ds ih =>
    have hfree : ∀ e ∈ t, collides d e = false := fun e he => by
      rw [collides_comm]
      exact (List.pairwise_append.1 h).2.2 e he d List.mem_cons_self
    have hkeep : registerKeep t d = t ++ [d] := by
      rw [registerKeep_eq, if_neg (by simpa using hfree)]
    calc populate t (d :: ds) = populate (t ++ [d]) ds := by rw [← hkeep]; rfl
      _ = t ++ d :: ds := by rw [ih (by simpa using h)]; simp

theorem collisionFree_perm {t u : List Descriptor} (h : t.Perm u) (hu : collisionFree u) : collisionFree t :=
  h.symm.pairwise hu fun {a b} hab => by rwa [collides_comm]

/-- In a collision-free table the order of the entries cannot be observed (R14, R71). -/
theorem matchWord_perm {t u : List Descriptor} (h : t.Perm u) (hu : collisionFree u) (w : Word) :
    matchWord t w = matchWord u w := by
  ext d
  rw [matchWord_eq_some_iff (collisionFree_perm h hu), matchWord_eq_some_iff hu, h.mem_iff]

end Sys2Proof

namespace Sys2Proof.Machine

/-- From the run phase a step changes neither table nor phase (R15, R70). -/
theorem step_run_keeps_table {s t : State} (hrun : s.phase = .run) (h : step s = .next t) :
    t.table = s.table ∧ t.phase = .run := by
  obtain ⟨-, ⟨hpop, -⟩ | ⟨-, -, rfl⟩ | ⟨-, -, -, rfl⟩ | ⟨-, -, w, -, -, rfl⟩ | ⟨-, -, w, i, -, -, he⟩⟩ := step_cases h
  · cases hpop.symm.trans hrun
  · exact ⟨rfl, hrun⟩
  · exact ⟨rfl, hrun⟩
  · exact ⟨rfl, hrun⟩
  · obtain ⟨htable, hphase, -⟩ := noInstructionChangesTableOrProgram i s t he
    exact ⟨htable, hphase.trans hrun⟩

/-- Settles O38: any order of `ENC` is collision-free, so population registers all of it, and matching does not see the
order. -/
theorem populationOrderIsUnobservable : Obligations.PopulationOrderIsUnobservable := by
  refine ⟨fun ds hperm => ?_, fun s t hrun h => step_run_keeps_table hrun h⟩
  have hall : populate [] ds = ds := populate_eq_append (t := []) (collisionFree_perm hperm enc_collisionFree)
  rw [hall]
  exact ⟨hperm, matchWord_perm hperm enc_collisionFree⟩

end Sys2Proof.Machine

namespace Sys2Proof

/-! ### Operand validation (R72, R74) -/

theorem regsValid_iff {nregs : Nat} {i : Instr} : i.regsValid nregs = true ↔ ∀ r ∈ i.regs, r.val < nregs := by
  simp [Instr.regsValid]

/-- What decodes, and to what, for every table and `NREGS`. -/
theorem decodeIn_eq_some_iff {t : List Descriptor} {nregs : Nat} {w : Word} {i : Instr} :
    decodeIn t nregs w = some i ↔
      ∃ d, matchWord t w = some d ∧ operandsOf d.semantic w = i ∧ i.regsValid nregs = true := by
  unfold decodeIn
  split
  case h_1 hm => simp [hm]
  case h_2 d hm =>
    simp only [hm, Option.some.injEq, exists_eq_left', Option.ite_none_right_eq_some]
    exact and_comm.trans (and_congr_right fun h => by rw [h])

/-- Settles O34: decoding is matching and then validation, which asks every operand register to be below `NREGS`. -/
theorem outOfRangeRegistersAreRejected : Obligations.OutOfRangeRegistersAreRejected := by
  refine ⟨fun t nregs w d hm ⟨r, hr, hge⟩ => ?_, fun t nregs w i h => ?_, fun t w d hm => ?_⟩
  · refine Option.eq_none_iff_forall_ne_some.2 fun i hi => ?_
    obtain ⟨e, he, rfl, hvalid⟩ := decodeIn_eq_some_iff.1 hi
    cases hm.symm.trans he
    exact Nat.not_lt.2 hge (regsValid_iff.1 hvalid r hr)
  · obtain ⟨-, -, -, hvalid⟩ := decodeIn_eq_some_iff.1 h
    exact regsValid_iff.1 hvalid
  · exact decodeIn_eq_some_iff.2 ⟨d, hm, rfl, regsValid_32 _⟩

end Sys2Proof

namespace Sys2Proof.Machine

/-! ### The step of a presented word (R81, R143) -/

/-- A presented word that decodes is executed. -/
theorem step_of_presents_decoded {s : State} {w : Word} {i : Instr} (h : s.Presents w)
    (hd : decodeIn s.table s.params.nregs w = some i) : step s = exec i s := by
  obtain ⟨hfetch, hend⟩ := fetchWord_of_presents h
  simp [step, State.frontEnd, h.running, h.run, State.fetchDecode, hend, hfetch, hd]

/-- Settles O40: `decode` is `decodeIn` of the default table and `NREGS = 32`. -/
theorem stepRunsDecodedInstruction : Obligations.StepRunsDecodedInstruction :=
  ⟨fun _ _ _ => step_of_presents_decoded,
    fun _ _ _ h ht hn hd => step_of_presents_decoded h (by rwa [ht, hn])⟩

theorem unitStep_of_decoded {s : State} {w : Word} {i : Instr} (h : decodeIn s.table s.params.nregs w = some i) :
    unitStep w s = ((execute i w s).state, .executed (execute i w s).result) := by
  simp only [unitStep, h]

theorem unitStep_of_undecodable {s : State} {w : Word} (h : decodeIn s.table s.params.nregs w = none) :
    unitStep w s = (s, .decodeFault w) := by
  simp only [unitStep, h]

/-- The step of a presented word is REF's reaction to `unit_step` of it. -/
theorem step_eq_reactTo_unitStep {s : State} {w : Word} (h : s.Presents w) :
    step s = .next ((unitStep w s).1.reactTo (unitStep w s).2) := by
  cases hd : decodeIn s.table s.params.nregs w with
  | none => rw [step_of_presents_undecodable h hd, unitStep_of_undecodable hd, reactTo_decodeFault]
  | some i =>
    rw [step_of_presents_decoded h hd, unitStep_of_decoded hd, exec_eq_finish, currentWord_of_presents h]
    rfl

/-- Settles O59: decoded or not, the step reacts to the unit's result; each reaction is REF's definition. -/
theorem stepReactsToUnitStep : Obligations.StepReactsToUnitStep := by
  refine ⟨fun s w h => step_eq_reactTo_unitStep h, fun s w a disp => ⟨rfl, ?_, rfl, rfl, rfl⟩⟩
  rw [← branchTarget_eq]
  rfl

/-! ### The result of an executed instruction (R77) -/

/-- The result of an access at `addr` by the instruction word `w` (R105, R106). -/
def accessResult (p : Params) (w addr : Word) : ExecutionResult :=
  if accepts p addr then .ok none else .memoryFault w addr

/-- The result of `execute`, said from the operands and the state before: the condition of a branch, the divisor of
`split`, the address of `gre` and `dr`; every other instruction answers `Ok(None)`. -/
def resultOf (i : Instr) (w : Word) (s : State) : ExecutionResult :=
  match i with
  | .cklap rd rs disp => .ok (if s.readReg rd = s.readReg rs then some disp else none)
  | .otk rd rs disp => .ok (if (s.readReg rs).slt (s.readReg rd) then some disp else none)
  | .hz rd rs disp => .ok (if s.readReg rd = s.readReg rs then none else some disp)
  | .split _ _ rt => if s.readReg rt = 0#32 then .arithmeticFault w else .ok none
  | .gre _ rs simm | .dr _ rs simm => accessResult s.params w (s.effectiveAddress rs simm)
  | _ => .ok none

theorem execute_result (i : Instr) (w : Word) (s : State) : (execute i w s).result = resultOf i w s := by
  cases i with
  | cklap => exact branchIf_equalTo ..
  | otk => exact branchIf_greaterThan ..
  | hz => exact branchIf_not_equalTo ..
  | split => simp only [execute, unitSplit, resultOf]; split <;> rfl
  | gre rt rs simm =>
    simp only [execute, unitGre, resultOf, accessResult, State.setWord]
    cases accepts s.params (s.effectiveAddress rs simm) <;> rfl
  | dr rd rs simm =>
    simp only [execute, unitDr, resultOf, accessResult, State.getWord]
    cases accepts s.params (s.effectiveAddress rs simm) <;> rfl
  | hot => simp only [execute, unitHot, resultOf]; split <;> rfl
  | gain | lose | nos | turbo | lup | put | fuel | cool | weld | merge | vs | skid | pit => rfl

theorem accessResult_eq_memoryFault_iff {p : Params} {w addr a : Word} :
    accessResult p w addr = .memoryFault w a ↔ addr = a ∧ accepts p a = false := by
  unfold accessResult
  by_cases h : addr = a
  · subst h; simp
  · simp [h, ite_eq_iff]

/-- The unit changes the state by the instruction's writes alone, whatever its result. -/
theorem effect_execute (i : Instr) (w : Word) (s : State) : Effect s (execute i w s).state := by
  rcases execute_cases i w s with ⟨s', b, he, h⟩ | h | ⟨a, h⟩ <;> rw [h]
  · exact he
  · exact .nothing
  · exact .nothing

section Results
variable {i : Instr} {w : Word} {s : State}

/-- `Ok(Some disp)` is a branch whose condition holds (R108, R110 to R112). -/
theorem execute_taken_iff {d : Word} : (execute i w s).result = .ok (some d) ↔
    ∃ rd rs, (i = .cklap rd rs d ∧ s.readReg rd = s.readReg rs) ∨
      (i = .otk rd rs d ∧ (s.readReg rs).toInt < (s.readReg rd).toInt) ∨
      (i = .hz rd rs d ∧ s.readReg rd ≠ s.readReg rs) := by
  rw [execute_result]
  cases i with
  | cklap | otk | hz => simp [resultOf, BitVec.slt_iff_toInt_lt, and_comm]
  | split | gre | dr => simp only [resultOf, accessResult]; split <;> simp
  | gain | lose | nos | turbo | lup | put | fuel | cool | weld | merge | vs | skid | pit | hot => simp [resultOf]

/-- `ArithmeticFault` is a `split` by zero (R89, R121). -/
theorem execute_arithmeticFault_iff : (execute i w s).result = .arithmeticFault w ↔
    ∃ rd rs rt, i = .split rd rs rt ∧ s.readReg rt = 0#32 := by
  rw [execute_result]
  cases i with
  | split => simp [resultOf]
  | gre | dr => simp only [resultOf, accessResult]; split <;> simp
  | cklap | otk | hz | gain | lose | nos | turbo | lup | put | fuel | cool | weld | merge | vs | skid | pit | hot =>
    simp [resultOf]

/-- `MemoryFault` is a `gre` or `dr` at a refused address (R105, R106, R122). -/
theorem execute_memoryFault_iff {a : Word} : (execute i w s).result = .memoryFault w a ↔
    ∃ x rs simm, (i = .gre x rs simm ∨ i = .dr x rs simm) ∧ s.effectiveAddress rs simm = a ∧
      accepts s.params a = false := by
  rw [execute_result]
  cases i with
  | gre | dr => simp [resultOf, accessResult_eq_memoryFault_iff]
  | split => simp only [resultOf]; split <;> simp
  | cklap | otk | hz | gain | lose | nos | turbo | lup | put | fuel | cool | weld | merge | vs | skid | pit | hot =>
    simp [resultOf]

/-- An executed instruction keeps the status, or is a `split` with an `ArithmeticFault`, or a `gre` or `dr` with a
`MemoryFault` (R78). -/
theorem exec_status_cases {t : State} (h : exec i s = .next t) :
    t.status = s.status ∨
      (i.operation = .split ∧ ∃ w, t.status = .faulted (.arithmetic w)) ∨
      (i.operation ∈ [.gre, .dr] ∧ ∃ w a, t.status = .faulted (.memory w a)) := by
  rw [exec_eq_finish] at h
  rcases execute_cases i s.currentWord s with ⟨s', b, he, hx⟩ | hx | ⟨a, hx⟩ <;> rw [hx] at h <;> cases h
  · exact .inl (by rw [react_ok_status, he.status])
  · obtain ⟨rd, rs, rt, rfl, -⟩ := execute_arithmeticFault_iff.1 (congrArg UnitOutcome.result hx)
    exact .inr (.inl ⟨rfl, _, rfl⟩)
  · obtain ⟨x, rs, simm, rfl | rfl, -, -⟩ := execute_memoryFault_iff.1 (congrArg UnitOutcome.result hx)
    · exact .inr (.inr ⟨by simp [Instr.operation], _, _, rfl⟩)
    · exact .inr (.inr ⟨by simp [Instr.operation], _, _, rfl⟩)

end Results

/-- Settles O46: every instruction answers REF's reaction, which changes the status for a faulting `split`, `gre` or `dr`
alone. -/
theorem seventeenInstructionsNeverFault : Obligations.SeventeenInstructionsNeverFault := by
  refine ⟨fun i s => ⟨_, exec_eq_finish i s⟩, fun i s t h hi => ?_, fun i s t f hs h hf => ?_⟩
  · obtain hkept | ⟨hsplit, -⟩ | ⟨hmem, -⟩ := exec_status_cases h
    · exact hkept
    · simp [hsplit] at hi
    · exact absurd (List.mem_cons_of_mem _ hmem) hi
  · obtain hkept | ⟨hsplit, w, hw⟩ | ⟨hmem, w, a, hw⟩ := exec_status_cases h
    · simp [hkept, hs] at hf
    · exact .inl ⟨hsplit, w, by simpa [hf] using hw⟩
    · exact .inr ⟨hmem, w, a, by simpa [hf] using hw⟩

/-! ### What an instruction depends on (R76, R82) -/

/-- The two states agree on all an instruction may read: parameters, registers and memory. -/
structure SameAdapters (s u : State) : Prop where
  params : s.params = u.params
  regs : s.regs = u.regs
  mem : s.mem = u.mem

namespace SameAdapters

variable {s u : State} (h : SameAdapters s u)
include h

theorem reg0Wired (r : Reg) : s.reg0Wired r = u.reg0Wired r := by
  simp only [State.reg0Wired, h.params]

theorem readReg (r : Reg) : s.readReg r = u.readReg r := by
  simp only [State.readReg, h.reg0Wired, h.regs]

theorem effectiveAddress (rs : Reg) (simm : Word) : s.effectiveAddress rs simm = u.effectiveAddress rs simm := by
  simp only [State.effectiveAddress, h.readReg]

theorem writeReg (r : Reg) {v v' : Word} (hv : v = v') : SameAdapters (s.writeReg r v) (u.writeReg r v') := by
  subst hv
  exact ⟨by simpa using h.params, by simp only [writeReg_regs, h.reg0Wired, h.regs], by simpa using h.mem⟩

/-- What the unit writes comes from the adapters alone, whatever the instruction word. -/
theorem execute_state (i : Instr) (w x : Word) : SameAdapters (execute i w s).state (execute i x u).state := by
  cases i with
  | gain | lose | nos | turbo | lup | put | fuel | cool | weld | merge | vs | skid =>
    exact h.writeReg _ (by simp only [h.readReg])
  | pit rd rs => exact (h.writeReg rd (h.readReg rs)).writeReg rs (h.readReg rd)
  | cklap | otk | hz => exact h
  | hot rd rs simm =>
    have hsum := h.writeReg rd (congrArg (sumWord · simm) (h.readReg rs))
    simp only [execute, unitHot, h.readReg] at hsum ⊢
    split
    · exact hsum.writeReg hotReg (by rw [hsum.readReg])
    · exact hsum
  | split rd rs rt =>
    simp only [execute, unitSplit, h.readReg]
    split
    · exact h
    · exact h.writeReg rd rfl
  | gre rt rs simm =>
    simp only [execute, unitGre, State.setWord, h.params, h.mem, h.readReg, h.effectiveAddress]
    cases accepts u.params (u.effectiveAddress rs simm) with
    | true => exact ⟨rfl, h.regs, rfl⟩
    | false => exact h
  | dr rd rs simm =>
    simp only [execute, unitDr, State.getWord, h.params, h.mem, h.effectiveAddress]
    split
    · exact h.writeReg rd rfl
    · exact h

/-- What the unit answers comes from the adapters alone, but for the instruction word that a fault carries. -/
theorem execute_results (i : Instr) (w x : Word) :
    (∃ b, (execute i w s).result = .ok b ∧ (execute i x u).result = .ok b) ∨
      ((execute i w s).result = .arithmeticFault w ∧ (execute i x u).result = .arithmeticFault x) ∨
      ∃ a, (execute i w s).result = .memoryFault w a ∧ (execute i x u).result = .memoryFault x a := by
  simp only [execute_result]
  cases i with
  | cklap | otk | hz => exact .inl ⟨_, rfl, by simp only [resultOf, h.readReg]⟩
  | split rd rs rt =>
    simp only [resultOf, h.readReg]
    split
    · exact .inr (.inl ⟨rfl, rfl⟩)
    · exact .inl ⟨_, rfl, rfl⟩
  | gre | dr =>
    simp only [resultOf, accessResult, h.effectiveAddress, h.params]
    split
    · exact .inl ⟨_, rfl, rfl⟩
    · exact .inr (.inr ⟨_, rfl, rfl⟩)
  | gain | lose | nos | turbo | lup | put | fuel | cool | weld | merge | vs | skid | pit | hot =>
    exact .inl ⟨_, rfl, rfl⟩

theorem execute_result_eq (i : Instr) (w : Word) :
    (execute i w s).result = (execute i w u).result := by
  obtain ⟨b, hs, hu⟩ | ⟨hs, hu⟩ | ⟨a, hs, hu⟩ := h.execute_results i w w <;> rw [hs, hu]

end SameAdapters

/-- How far REF moves `pc` on a result that is no fault (R113). -/
theorem react_ok_pc_sub (s : State) (b : Option Word) :
    (s.react (.ok b)).pc - s.pc = b.elim 4#32 (4#32 + 4#32 * ·) := by
  cases b with
  | none => simp
  | some disp => simp [branchTarget_eq, BitVec.add_assoc]

/-- From states that agree on the adapters an instruction leaves the same registers and memory, moves `pc` equally far,
and faults in both or in neither. -/
theorem SameAdapters.exec_agree {i : Instr} {s u t v : State} (h : SameAdapters s u) (ht : exec i s = .next t)
    (hv : exec i u = .next v) :
    t.regs = v.regs ∧ t.mem = v.mem ∧ t.pc - s.pc = v.pc - u.pc ∧
      (s.status = .running → u.status = .running → (t.status = .running ↔ v.status = .running)) := by
  rw [exec_eq_finish] at ht hv
  cases ht
  cases hv
  have hs := effect_execute i s.currentWord s
  have hu := effect_execute i u.currentWord u
  have hstate := h.execute_state i s.currentWord u.currentWord
  refine ⟨by simpa using hstate.regs, by simpa using hstate.mem, ?_⟩
  obtain ⟨b, hrs, hru⟩ | ⟨hrs, hru⟩ | ⟨a, hrs, hru⟩ := h.execute_results i s.currentWord u.currentWord <;>
    rw [hrs, hru, ← hs.pc, ← hu.pc, ← hs.status, ← hu.status]
  · refine ⟨by rw [react_ok_pc_sub, react_ok_pc_sub], fun hrun hrun' => ?_⟩
    rw [react_ok_status, react_ok_status, hrun, hrun']
  · simp
  · simp

/-- Settles O49: the unit's writes and result come from the adapters, and REF's reaction comes from the result. -/
theorem executionReadsOnlyItsAdapters : Obligations.ExecutionReadsOnlyItsAdapters := by
  intro i s u hparams hregs hmem
  have h : SameAdapters s u := ⟨hparams, hregs, hmem⟩
  exact ⟨h.execute_result_eq i, _, _, exec_eq_finish i s, exec_eq_finish i u,
    h.exec_agree (exec_eq_finish i s) (exec_eq_finish i u)⟩

/-- Settles O55: the listed results with their conditions, no write on a fault, and `unit_step` by what the word decodes
to. -/
theorem unitReturnsListedResults : Obligations.UnitReturnsListedResults := by
  rintro i w s o rfl
  refine ⟨?_, fun d => execute_taken_iff, execute_arithmeticFault_iff, fun a => ?_, fun hfault => ?_, fun t ht => ?_,
    unitStep_of_decoded, unitStep_of_undecodable⟩
  · obtain ⟨s', b, -, hx⟩ | hx | ⟨a, hx⟩ := execute_cases i w s <;> rw [hx]
    · cases b with
      | none => exact .inl rfl
      | some d => exact .inr (.inl ⟨d, rfl⟩)
    · exact .inr (.inr (.inl rfl))
    · exact .inr (.inr (.inr ⟨a, rfl⟩))
  · simp only [execute_memoryFault_iff, accepts_eq_false_iff]
  · obtain ⟨s', b, -, hx⟩ | hx | ⟨a, hx⟩ := execute_cases i w s
    · exact absurd (congrArg UnitOutcome.result hx) (hfault b)
    · rw [hx]
    · rw [hx]
  · rw [exec_eq_finish] at ht
    cases ht
    have hsame : SameAdapters s s := ⟨rfl, rfl, rfl⟩
    have hstate := hsame.execute_state i s.currentWord w
    exact ⟨by rw [react_regs, hstate.regs], by rw [react_mem, hstate.mem]⟩

end Sys2Proof.Machine
end

section
/-! PROOFS. The statements of 41_arith_register.md: what each register-register instruction writes, and that nothing else
changes but `pc`. -/

namespace Sys2Proof.Machine

/-! ### Arithmetic of the results (R88 to R90) -/

/-- The low word of a product does not depend on the reading of the operands (R88). -/
theorem productWord_eq_ofNat (a b : Word) : productWord a b = BitVec.ofNat 32 (unsigned a * unsigned b) := by
  rw [productWord_eq, BitVec.ofNat_mul, BitVec.ofNat_toNat, BitVec.ofNat_toNat, BitVec.setWidth_eq, BitVec.setWidth_eq]

/-- The one quotient that does not fit a Word wraps (R89, D10). -/
theorem quotientWord_overflow : quotientWord 0x80000000#32 0xFFFFFFFF#32 = 0x80000000#32 := by
  decide

/-- Doubling is a shift left by one (R90). -/
theorem sumWord_self (a : Word) : sumWord a a = a <<< 1 := by
  rw [sumWord_eq, BitVec.shiftLeft_eq_mul_twoPow, ← BitVec.two_mul, BitVec.mul_comm]
  rfl

/-! ### An instruction that writes one register -/

/-- A register instruction completes and writes its result, in whatever form the result is said. -/
theorem exists_completes_of_write {i : Instr} {s : State} {rd : Reg} {v u : Word}
    (h : exec i s = finish ⟨s.writeReg rd v, .ok none⟩) (hv : v = u) :
    ∃ t, CompletesWriting [rd] i s t ∧ Wrote s t rd u :=
  ⟨_, hv ▸ completes_of_write h⟩

/-! ### `split` by its divisor (R89) -/

theorem exec_split_of_ne_zero (rd rs : Reg) {rt : Reg} {s : State} (h : s.readReg rt ≠ 0#32) :
    exec (.split rd rs rt) s = finish ⟨s.writeReg rd (quotientWord (s.readReg rs) (s.readReg rt)), .ok none⟩ := by
  simp only [exec, execSplit, unitSplit, if_neg h]

theorem exec_split_of_zero (rd rs : Reg) {rt : Reg} {s : State} (h : s.readReg rt = 0#32) :
    exec (.split rd rs rt) s = .next (s.takeFault (.arithmetic s.currentWord)) := by
  simp only [exec, execSplit, unitSplit, if_pos h, finish, react_arithmetic]

/-! ### The statements -/

/-- Settles O3: one write of the product word, which both readings of the operands give. -/
theorem nosGivesLowProductWord : Obligations.NosGivesLowProductWord := by
  refine ⟨readsAs_of_row .nos (by decide) fun _ => rfl, fun rd rs rt s => ?_⟩
  obtain ⟨hcompletes, hwrote⟩ := completes_of_write (i := .nos rd rs rt) (s := s) rfl
  exact ⟨_, _, hcompletes, hwrote, rfl, productWord_eq_ofNat _ _⟩

/-- Settles O4: by the divisor; where it is not 0, the quotient written is the library's division toward zero. -/
theorem splitDividesTowardZero : Obligations.SplitDividesTowardZero := by
  refine ⟨readsAs_of_row .split (by decide) fun _ => rfl, fun rd rs rt s => ⟨fun hrt => ?_, exec_split_of_zero rd rs⟩⟩
  obtain ⟨hcompletes, hwrote⟩ := completes_of_write (exec_split_of_ne_zero rd rs hrt)
  refine ⟨_, _, hcompletes, hwrote, quotientWord_eq _ _, fun hmin hneg => ?_⟩
  rw [hmin, hneg, quotientWord_overflow]

/-- Settles O1: one write of the sum. -/
theorem gainAddsAndWraps : Obligations.GainAddsAndWraps :=
  ⟨readsAs_of_row .gain (by decide) fun _ => rfl, fun _ _ _ _ => exists_completes_of_write rfl (sumWord_eq _ _)⟩

/-- Settles O2: one write of the difference. -/
theorem loseSubtractsAndWraps : Obligations.LoseSubtractsAndWraps :=
  ⟨readsAs_of_row .lose (by decide) fun _ => rfl, fun _ _ _ _ => exists_completes_of_write rfl (differenceWord_eq _ _)⟩

/-- Settles O6: one write of the sum of `rs` with itself, which is the shift. -/
theorem turboDoubles : Obligations.TurboDoubles :=
  ⟨readsAs_of_row .turbo (by decide) fun _ => rfl, fun _ _ _ => exists_completes_of_write rfl (sumWord_self _)⟩

/-- Settles O7: one write of the sum with 1. -/
theorem lupIncrements : Obligations.LupIncrements :=
  ⟨readsAs_of_row .lup (by decide) fun _ => rfl, fun _ _ => exists_completes_of_write rfl (sumWord_eq _ _)⟩

end Sys2Proof.Machine
end

section
/-! PROOFS. The statements of 42_arith_immediate.md: what each immediate instruction writes, when `hot` counts in register 2,
and that nothing else changes but `pc`. -/

namespace Sys2Proof.Machine

/-! ### Two writes -/

/-- The later of two writes to one register is the one that stays (R17 to R19). -/
theorem writeReg_writeReg_same (s : State) (r : Reg) (v u : Word) : (s.writeReg r v).writeReg r u = s.writeReg r u := by
  by_cases hr : s.reg0Wired r = true
  · rw [writeReg_of_wired v hr]
  · have hr' : (s.writeReg r v).reg0Wired r = false := by simpa using hr
    rw [State.writeReg, hr']
    simp [State.writeReg, hr]

section TwoWrites
variable {i : Instr} {s : State} {r x : Reg} {v u : Word}

/-- An instruction that writes two registers: the writes and the fall-through say everything about it. -/
theorem completes_of_writeTwo (h : exec i s = finish ⟨(s.writeReg r v).writeReg x u, .ok none⟩) :
    CompletesWriting [r, x] i s (((s.writeReg r v).writeReg x u).react (.ok none)) := by
  refine ⟨h, fun y hy => ?_, fun a => by simp, by simp [HostKept], by simp⟩
  obtain ⟨hyr, hyx⟩ : y ≠ r ∧ y ≠ x := by simpa using hy
  rw [react_readReg, readReg_writeReg_other _ _ _ _ hyx, readReg_writeReg_other _ _ _ _ hyr]

/-- A write to another register leaves the first one standing. -/
theorem wrote_writeTwo (res : ExecutionResult) (h : r ≠ x) :
    Wrote s (((s.writeReg r v).writeReg x u).react res) r v := by
  simpa only [Wrote, react_readReg, readReg_writeReg_other _ _ _ _ h] using wrote_writeReg s r v

end TwoWrites

/-! ### `hot` by its sum (R97) -/

theorem overLimit_iff (v : Word) : overLimit v = true ↔ 200 < v.toInt := decide_eq_true_iff

/-- Register 2 is never hardwired. -/
theorem takesWrite_hotReg (s : State) : s.TakesWrite 2 := fun h => absurd h.2 (by decide)

/-- Where `rd` is register 2, what is counted up is the sum just written. -/
theorem countHot_writeReg_hotReg (s : State) (v : Word) : (s.writeReg 2 v).countHot = s.writeReg 2 (v + 1#32) := by
  have hread : (s.writeReg 2 v).readReg hotReg = v := readReg_writeReg_of_takesWrite v (takesWrite_hotReg s)
  rw [State.countHot, hread, sumWord_eq]
  exact writeReg_writeReg_same s 2 v _

/-- Where `rd` is another register, what is counted up is register 2 as it was. -/
theorem countHot_writeReg_other (s : State) {rd : Reg} (v : Word) (h : rd ≠ 2) :
    (s.writeReg rd v).countHot = (s.writeReg rd v).writeReg 2 (s.readReg 2 + 1#32) := by
  have hread : (s.writeReg rd v).readReg hotReg = s.readReg 2 := readReg_writeReg_other s rd 2 v h.symm
  rw [State.countHot, hread, sumWord_eq]
  rfl

theorem exec_hot_of_le {rd rs : Reg} {simm : Word} {s : State} (h : (s.readReg rs + simm).toInt ≤ 200) :
    exec (.hot rd rs simm) s = finish ⟨s.writeReg rd (s.readReg rs + simm), .ok none⟩ := by
  have hlimit : ¬ overLimit (s.readReg rs + simm) = true := by rw [overLimit_iff]; omega
  simp only [exec, execHot, unitHot, sumWord_eq, if_neg hlimit]

theorem exec_hot_of_lt {rd rs : Reg} {simm : Word} {s : State} (h : 200 < (s.readReg rs + simm).toInt) :
    exec (.hot rd rs simm) s = finish ⟨(s.writeReg rd (s.readReg rs + simm)).countHot, .ok none⟩ := by
  simp only [exec, execHot, unitHot, sumWord_eq, if_pos ((overLimit_iff _).2 h)]

/-! ### The statements -/

/-- Settles O11: one write up to the limit; over it two, which are one where `rd` is register 2. -/
theorem hotCountsSumsOver200 : Obligations.HotCountsSumsOver200 := by
  refine ⟨readsAs_of_row .hot (by decide) fun _ => rfl, ?_⟩
  rintro rd rs simm _ s rfl
  refine ⟨fun hle => ⟨_, completes_of_write (exec_hot_of_le hle)⟩, fun hlt hrd => ?_, ?_⟩
  · have hexec := exec_hot_of_lt (rd := rd) hlt
    rw [countHot_writeReg_other s _ hrd] at hexec
    refine ⟨_, completes_of_writeTwo hexec, wrote_writeTwo _ hrd, ?_⟩
    rw [react_readReg]
    exact readReg_writeReg_of_takesWrite _ (takesWrite_hotReg _)
  · rintro hlt rfl
    have hexec := exec_hot_of_lt (rd := 2) hlt
    rw [countHot_writeReg_hotReg] at hexec
    obtain ⟨hcompletes, hwrote⟩ := completes_of_write hexec
    exact ⟨_, hcompletes, hwrote.1 (takesWrite_hotReg s)⟩

/-- Settles O8: one write of the sum. -/
theorem putAddsImmediate : Obligations.PutAddsImmediate :=
  ⟨readsAs_of_row .put (by decide) fun _ => rfl, fun _ _ _ _ => exists_completes_of_write rfl (sumWord_eq _ _)⟩

/-- Settles O9: one write of the immediate; a word of its `op` with a non-zero `fa` is one of R55's illegal words. -/
theorem fuelLoadsImmediate : Obligations.FuelLoadsImmediate :=
  ⟨readsAs_of_row .fuel (by decide) fun _ => rfl,
    fun w hop hfa => (decode_eq_none_iff_listed w).2 (.inr (.inr (.inl ⟨hop, hfa⟩))),
    fun _ _ _ => exists_completes_of_write rfl rfl⟩

/-- Settles O10: one write of the difference. -/
theorem coolSubtractsImmediate : Obligations.CoolSubtractsImmediate :=
  ⟨readsAs_of_row .cool (by decide) fun _ => rfl, fun _ _ _ _ => exists_completes_of_write rfl (differenceWord_eq _ _)⟩

end Sys2Proof.Machine
end

section
/-! PROOFS. The statements of 43_logic_compare_move.md: what the two bitwise instructions, the comparison, the clamp and
the exchange write, and that nothing else changes but `pc`. -/

namespace Sys2Proof.Machine

/-! ### The exchange (R103) -/

/-- Whether a write lands depends on the parameters alone (R19). -/
theorem takesWrite_of_params_eq {s t : State} {r : Reg} (hp : t.params = s.params) (h : s.TakesWrite r) :
    t.TakesWrite r := by
  simpa only [State.TakesWrite, hp] using h

/-- The second of two writes stands, whatever the first one named. -/
theorem wrote_writeTwo_last (s : State) (r x : Reg) (v u : Word) (res : ExecutionResult) :
    Wrote s (((s.writeReg r v).writeReg x u).react res) x u := by
  simpa only [Wrote, State.TakesWrite, react_readReg, writeReg_params] using wrote_writeReg (s.writeReg r v) x u

/-- What one `pit` does (R103): it completes from `s` in `t`, and each of the pair has the other's old value. -/
structure Exchanges (rd rs : Reg) (s t : State) : Prop where
  completes : CompletesWriting [rd, rs] (.pit rd rs) s t
  wroteRd : Wrote s t rd (s.readReg rs)
  wroteRs : Wrote s t rs (s.readReg rd)

/-- Every `pit` exchanges its pair; on a pair of one register both writes are the same. -/
theorem exists_exchanges (rd rs : Reg) (s : State) : ∃ t, Exchanges rd rs s t := by
  refine ⟨_, completes_of_writeTwo rfl, ?_, wrote_writeTwo_last ..⟩
  by_cases h : rd = rs
  · subst h
    exact wrote_writeTwo_last ..
  · exact wrote_writeTwo _ h

/-- Two exchanges of a pair whose writes all land give every register its first value back. -/
theorem Exchanges.readReg_twice {rd rs : Reg} {s t u : State} (hst : Exchanges rd rs s t) (htu : Exchanges rd rs t u)
    (hrd : s.TakesWrite rd) (hrs : s.TakesWrite rs) (r : Reg) : u.readReg r = s.readReg r := by
  obtain ⟨hparams, -⟩ := hst.completes.host
  by_cases h : r ∈ [rd, rs]
  · obtain rfl | rfl : r = rd ∨ r = rs := by simpa using h
    · rw [htu.wroteRd.1 (takesWrite_of_params_eq hparams hrd), hst.wroteRs.1 hrs]
    · rw [htu.wroteRs.1 (takesWrite_of_params_eq hparams hrs), hst.wroteRd.1 hrd]
  · rw [htu.completes.regs r h, hst.completes.regs r h]

/-- Settles O16: one exchange, and the same exchange again from the state it leaves. -/
theorem pitSwapsTwoRegisters : Obligations.PitSwapsTwoRegisters := by
  refine ⟨readsAs_of_row .pit (by decide) fun _ => rfl, fun rd rs s => ?_⟩
  obtain ⟨t, hst⟩ := exists_exchanges rd rs s
  obtain ⟨u, htu⟩ := exists_exchanges rd rs t
  exact ⟨t, hst.completes, hst.wroteRd, hst.wroteRs,
    fun hrd hrs => ⟨u, htu.completes, hst.readReg_twice htu hrd hrs⟩⟩

/-! ### The results of the comparison and the clamp (R101, R102) -/

theorem lessThan_iff (a b : Word) : lessThan a b = true ↔ a.toInt < b.toInt := decide_eq_true_iff

/-- The clamp is the maximum of signed readings (R102). -/
theorem toInt_clampAtZero (a : Word) : (clampAtZero a).toInt = max a.toInt 0 := by
  unfold clampAtZero
  split
  · next hpos => exact (max_eq_left (le_of_lt hpos)).symm
  · next hle => exact (max_eq_right (not_lt.1 hle)).symm

/-! ### An instruction that writes one register -/

/-- A register instruction completes and writes a word of which everything said of its result holds. -/
theorem exists_completes_satisfying {i : Instr} {s : State} {rd : Reg} {v : Word} {P : Word → Prop}
    (h : exec i s = finish ⟨s.writeReg rd v, .ok none⟩) (hv : P v) :
    ∃ t v, CompletesWriting [rd] i s t ∧ Wrote s t rd v ∧ P v :=
  have ⟨hcompletes, hwrote⟩ := completes_of_write h
  ⟨_, v, hcompletes, hwrote, hv⟩

/-! ### The statements -/

/-- Settles O12: one write of the AND. -/
theorem weldAndsEachBit : Obligations.WeldAndsEachBit :=
  ⟨readsAs_of_row .weld (by decide) fun _ => rfl,
    fun _ _ _ _ => exists_completes_satisfying rfl fun _ _ => BitVec.getLsbD_and⟩

/-- Settles O13: one write of the OR. -/
theorem mergeOrsEachBit : Obligations.MergeOrsEachBit :=
  ⟨readsAs_of_row .merge (by decide) fun _ => rfl,
    fun _ _ _ _ => exists_completes_satisfying rfl fun _ _ => BitVec.getLsbD_or⟩

/-- Settles O14: one write, of 1 or 0 by the signed comparison. -/
theorem vsSetsOnSignedLess : Obligations.VsSetsOnSignedLess := by
  refine ⟨readsAs_of_row .vs (by decide) fun _ => rfl,
    fun _ _ _ _ => exists_completes_satisfying rfl ⟨?_, ?_⟩⟩
  · exact fun hlt => if_pos ((lessThan_iff _ _).2 hlt)
  · exact fun hle => if_neg fun hless => not_lt.2 hle ((lessThan_iff _ _).1 hless)

/-- Settles O15: one write of the clamped word. -/
theorem skidClampsAtZero : Obligations.SkidClampsAtZero :=
  ⟨readsAs_of_row .skid (by decide) fun _ => rfl,
    fun _ _ _ => exists_completes_satisfying rfl (toInt_clampAtZero _)⟩

end Sys2Proof.Machine
end

section
/-! PROOFS. The statements of 44_load_store.md: what `gre` and `dr` make of an accepted and of a refused address, in the
unit and with REF's reaction, and that a load gives back the word stored. -/

namespace Sys2Proof.Machine

/-! ### The unit by the Memory Model's answer (R105, R106) -/

section Unit
variable {s : State} {a : Word} (x rs : Reg) (simm w : Word) (ha : s.effectiveAddress rs simm = a)
include ha

theorem execute_gre_of_setWord {t : State} (h : s.setWord a (s.readReg x) = some t) :
    execute (.gre x rs simm) w s = ⟨t, .ok none⟩ := by
  subst ha
  simp only [execute, unitGre, h]

theorem execute_gre_of_refused (h : accepts s.params a = false) :
    execute (.gre x rs simm) w s = ⟨s, .memoryFault w a⟩ := by
  subst ha
  simp only [execute, unitGre, setWord_eq_none.2 h]

theorem execute_dr_of_getWord {v : Word} (h : s.getWord a = some v) :
    execute (.dr x rs simm) w s = ⟨s.writeReg x v, .ok none⟩ := by
  subst ha
  simp only [execute, unitDr, h]

theorem execute_dr_of_refused (h : accepts s.params a = false) :
    execute (.dr x rs simm) w s = ⟨s, .memoryFault w a⟩ := by
  subst ha
  simp only [execute, unitDr, getWord_eq_none.2 h]

end Unit

/-! ### The Memory Model at an accepted address (R33, R34) -/

section Accepted
variable {s : State} {a : Word} (hal : a.toNat % 4 = 0) (hv : memValid s.params a = true)
include hal hv

theorem exists_setWord_of_valid (v : Word) : ∃ t, s.setWord a v = some t :=
  ⟨_, setWord_eq_some.2 ⟨(accepts_iff _ a).2 ⟨hal, hv⟩, rfl⟩⟩

theorem exists_getWord_of_valid : ∃ v, s.getWord a = some v :=
  ⟨_, getWord_eq_some.2 ⟨(accepts_iff _ a).2 ⟨hal, hv⟩, rfl⟩⟩

end Accepted

/-! ### What a read sees of a state -/

/-- A load sees the parameters and memory alone (R33). -/
theorem getWord_congr {s t : State} (hp : t.params = s.params) (hm : t.mem = s.mem) (a : Word) :
    t.getWord a = s.getWord a := by
  simp only [State.getWord, hp, hm]

/-- A register read sees the parameters and the cells alone (R17, R19). -/
theorem readReg_congr {s t : State} (hp : t.params = s.params) (hr : t.regs = s.regs) (r : Reg) :
    t.readReg r = s.readReg r := by
  have hwired : t.reg0Wired r = s.reg0Wired r := by simp only [State.reg0Wired, hp]
  simp only [State.readReg, hwired, hr]

/-- REF's reaction to a completed instruction keeps what the unit kept. -/
theorem HostKept.react_ok {s t : State} (h : HostKept s t) (b : Option Word) : HostKept s (t.react (.ok b)) := by
  simpa [HostKept] using h

/-! ### A load after a store (R107) -/

/-- A `gre` that leaves the run on has stored its word. -/
theorem setWord_of_exec_gre_running {s t : State} {rt rs : Reg} {simm a : Word} (ha : s.effectiveAddress rs simm = a)
    (h : exec (.gre rt rs simm) s = .next t) (ht : t.status = .running) :
    ∃ t', s.setWord a (s.readReg rt) = some t' ∧ t = t'.react (.ok none) := by
  cases hset : s.setWord a (s.readReg rt) with
  | some t' =>
    rw [exec_gre_of_setWord rt rs simm ha hset] at h
    cases h
    exact ⟨t', rfl, rfl⟩
  | none =>
    rw [exec_gre_of_refused rt rs simm ha (setWord_eq_none.1 hset)] at h
    cases h
    simp at ht

/-- A `dr` whose load the Memory Model answers completes and writes the word. -/
theorem exec_dr_completes {s : State} {a v : Word} (rd : Reg) {rs : Reg} {simm : Word}
    (ha : s.effectiveAddress rs simm = a) (h : s.getWord a = some v) :
    ∃ t, CompletesWriting [rd] (.dr rd rs simm) s t ∧ Wrote s t rd v := by
  refine exists_completes_of_write ?_ rfl
  rw [exec_eq_finish, execute_dr_of_getWord rd rs simm _ ha h]

/-- Settles O20: the running status says that the `gre` stored its word, and the later load sees the same memory. -/
theorem loadReturnsStoredWord : Obligations.LoadReturnsStoredWord := by
  intro rt rs rd ru i j s t u hwf _ hexec ht hmem hparams haddr
  obtain ⟨t', hset, rfl⟩ := setWord_of_exec_gre_running rfl hexec ht
  refine exec_dr_completes rd haddr ?_
  rw [react_mem] at hmem
  rw [react_params] at hparams
  rw [getWord_congr hparams hmem]
  exact getWord_setWord_same hwf hset

/-! ### The unit's statements -/

/-- Settles O57: by the Memory Model's answer, whose contract says all about an accepted store. -/
theorem unitGreStoresOrReports : Obligations.UnitGreStoresOrReports := by
  refine ⟨readsAs_of_row .gre (by decide) fun _ => rfl, fun rt rs simm a w s hwf ha =>
    ⟨ha ▸ effectiveAddress_eq s rs simm, fun hal hv => ?_, fun hbad =>
      execute_gre_of_refused rt rs simm w ha ((accepts_eq_false_iff _ a).2 hbad)⟩⟩
  obtain ⟨t, hset⟩ := exists_setWord_of_valid hal hv (s.readReg rt)
  obtain ⟨hget, -, hmem, -, hregs, hpc, hhost⟩ := (memoryModelKeepsItsContract s a a _ hwf).2.2 t hset
  exact ⟨t, execute_gre_of_setWord rt rs simm w ha hset, hget, hmem, hregs, hhost, hpc⟩

/-- Settles O58: by the Memory Model's answer; at an accepted address, one write of the word read. -/
theorem unitDrLoadsOrReports : Obligations.UnitDrLoadsOrReports := by
  refine ⟨readsAs_of_row .dr (by decide) fun _ => rfl, fun rd rs simm a w s ha =>
    ⟨ha ▸ effectiveAddress_eq s rs simm, fun hal hv => ?_, fun hbad =>
      execute_dr_of_refused rd rs simm w ha ((accepts_eq_false_iff _ a).2 hbad)⟩⟩
  obtain ⟨v, hget⟩ := exists_getWord_of_valid hal hv
  exact ⟨_, v, execute_dr_of_getWord rd rs simm w ha hget, hget, wrote_writeReg s rd v, regsKept_writeReg s rd v,
    writeReg_mem s rd v, (Effect.write rd v).hostKept, writeReg_pc s rd v⟩

/-! ### The statements with REF's reaction -/

/-- Settles O17: the unit's store or report, and REF's reaction to it, which moves `pc` or records the fault. -/
theorem greStoresAtEffectiveAddress : Obligations.GreStoresAtEffectiveAddress := by
  refine ⟨unitGreStoresOrReports.1, fun rt rs simm a s hwf ha => ?_⟩
  obtain ⟨haddr, hstores, hreports⟩ := unitGreStoresOrReports.2 rt rs simm a s.currentWord s hwf ha
  rw [exec_eq_finish]
  refine ⟨haddr, fun hal hv => ?_, fun hbad => by rw [hreports hbad]; rfl⟩
  obtain ⟨t, hexec, hget, hmem, hregs, hhost, hpc⟩ := hstores hal hv
  refine ⟨t.react (.ok none), by rw [hexec]; rfl, ?_, fun c hc => ?_, fun r _ => ?_, hhost.react_ok none, ?_⟩
  · rw [getWord_congr (react_params t _) (react_mem t _), hget]
  · rw [react_mem, hmem c hc]
  · rw [react_readReg, readReg_congr hhost.1 hregs]
  · rw [react_fallthrough_pc, hpc]

/-- Settles O18: by the Memory Model's answer; at an accepted address, one write of the word read. -/
theorem drLoadsFromEffectiveAddress : Obligations.DrLoadsFromEffectiveAddress := by
  refine ⟨unitDrLoadsOrReports.1, fun rd rs simm a s ha =>
    ⟨ha ▸ effectiveAddress_eq s rs simm, fun hal hv => ?_, fun hbad =>
      exec_dr_of_refused rd rs simm ha ((accepts_eq_false_iff _ a).2 hbad)⟩⟩
  obtain ⟨v, hget⟩ := exists_getWord_of_valid hal hv
  obtain ⟨t, hcompletes, hwrote⟩ := exec_dr_completes rd ha hget
  exact ⟨t, v, hcompletes, hget, hwrote⟩

end Sys2Proof.Machine
end

section
/-! PROOFS. The statements of 45_branch.md: what a branch signals, where REF takes `pc` on the signal, and that no other
instruction redirects it. -/

namespace Sys2Proof.Machine

/-! ### What the unit makes of a branch (R108 to R112) -/

section Signal
variable (rd rs : Reg) (disp w : Word) (s : State)

theorem execute_cklap : execute (.cklap rd rs disp) w s =
    ⟨s, .ok (if s.readReg rd = s.readReg rs then some disp else none)⟩ :=
  congrArg (UnitOutcome.mk s) (branchIf_equalTo ..)

theorem execute_otk : execute (.otk rd rs disp) w s =
    ⟨s, .ok (if (s.readReg rs).slt (s.readReg rd) then some disp else none)⟩ :=
  congrArg (UnitOutcome.mk s) (branchIf_greaterThan ..)

theorem execute_hz : execute (.hz rd rs disp) w s =
    ⟨s, .ok (if s.readReg rd = s.readReg rs then none else some disp)⟩ :=
  congrArg (UnitOutcome.mk s) (branchIf_not_equalTo ..)

end Signal

/-- Settles O56: each branch leaves the state as it is and signals by its condition. -/
theorem branchSignalCarriesDisplacement : Obligations.BranchSignalCarriesDisplacement :=
  fun _ _ _ _ _ => ⟨execute_cklap .., execute_otk .., execute_hz ..⟩

/-! ### REF's reaction to a signal (R113) -/

/-- Where REF goes from `pc` on the branch part of a completed instruction's result. -/
def pcAfter (pc : Word) (b : Option Word) : Word := b.elim (pc + 4#32) (pc + 4#32 + 4#32 * ·)

/-- REF's reaction to a completed instruction is the move of `pc` alone. -/
theorem react_ok (s : State) (b : Option Word) : s.react (.ok b) = { s with pc := pcAfter s.pc b } := by
  cases b with
  | none => rfl
  | some disp => simp only [State.react, branchTarget_eq, pcAfter, Option.elim_some]

/-- A signal that depends on a condition moves `pc` by the same condition. -/
theorem pcAfter_ite (pc : Word) (c : Prop) [Decidable c] (b b' : Option Word) :
    pcAfter pc (if c then b else b') = if c then pcAfter pc b else pcAfter pc b' := apply_ite ..

/-- An instruction that only signals has only `pc` moved, in whatever form the new `pc` is said. -/
theorem exec_of_signal {i : Instr} {s : State} {b : Option Word} {pc : Word}
    (h : execute i s.currentWord s = ⟨s, .ok b⟩) (hpc : pcAfter s.pc b = pc) : exec i s = .next { s with pc := pc } := by
  rw [exec_eq_finish, h, finish, react_ok, hpc]

/-- Only the three branches signal a displacement (R108). -/
theorem operation_of_taken {i : Instr} {w d : Word} {s : State} (h : (execute i w s).result = .ok (some d)) :
    i.operation ∈ [.cklap, .otk, .hz] := by
  obtain ⟨rd, rs, ⟨rfl, -⟩ | ⟨rfl, -⟩ | ⟨rfl, -⟩⟩ := execute_taken_iff.1 h <;> simp [Instr.operation]

/-! ### The statements with REF's reaction -/

/-- Settles O27: a completed instruction that is no branch signals nothing, and the writes of an instruction keep `pc`. -/
theorem onlyBranchesRedirect : Obligations.OnlyBranchesRedirect := by
  intro i s t ht hi
  rw [exec_eq_finish] at ht
  obtain ⟨s', b, heffect, hx⟩ | hx | ⟨a, hx⟩ := execute_cases i s.currentWord s <;> rw [hx] at ht <;> cases ht
  · cases b with
    | none => exact .inl (by rw [react_fallthrough_pc, heffect.pc])
    | some d => exact absurd (operation_of_taken (congrArg UnitOutcome.result hx)) hi
  · exact .inr ⟨_, rfl⟩
  · exact .inr ⟨_, rfl⟩

/-- Settles O23: the signal on equality, and REF's move on it. -/
theorem cklapBranchesOnEqual : Obligations.CklapBranchesOnEqual :=
  ⟨readsAs_of_row .cklap (by decide) fun _ => rfl,
    fun _ _ _ _ => exec_of_signal (execute_cklap ..) (pcAfter_ite ..)⟩

/-- Settles O24: the signal on the signed comparison, and REF's move on it. -/
theorem otkBranchesOnSignedGreater : Obligations.OtkBranchesOnSignedGreater :=
  ⟨readsAs_of_row .otk (by decide) fun _ => rfl,
    fun _ _ _ _ => exec_of_signal (execute_otk ..) (pcAfter_ite ..)⟩

/-- Settles O25: the signal on inequality, and REF's move on it. -/
theorem hzBranchesOnUnequal : Obligations.HzBranchesOnUnequal :=
  ⟨readsAs_of_row .hz (by decide) fun _ => rfl,
    fun _ _ _ _ => exec_of_signal (execute_hz ..) (pcAfter_ite ..)⟩

end Sys2Proof.Machine
end

section
/-! PROOFS. The statements of 60_exceptions.md: what raises each fault and what the fault carries, that a fault changes
nothing but the status, that a stopped run stays stopped, and the fault port. -/

namespace Sys2Proof.Machine

/-! ### Faults of an executed instruction (R121, R122) -/

/-- The fault an instruction ends with from a running state is the one the unit reports, on the word at `pc`, and the
unit has written nothing (R77, R79). -/
theorem exec_faulted {i : Instr} {s t : State} {f : FaultReport} (hs : s.status = .running) (h : exec i s = .next t)
    (hf : t.status = .faulted f) :
    t = s.takeFault f ∧
      ((f = .arithmetic s.currentWord ∧ (execute i s.currentWord s).result = .arithmeticFault s.currentWord) ∨
        ∃ a, f = .memory s.currentWord a ∧ (execute i s.currentWord s).result = .memoryFault s.currentWord a) := by
  rw [exec_eq_finish] at h
  obtain ⟨s', b, heffect, hx⟩ | hx | ⟨a, hx⟩ := execute_cases i s.currentWord s <;> rw [hx] at h ⊢ <;> cases h
  · rw [react_ok_status, heffect.status, hs] at hf
    cases hf
  · cases hf
    exact ⟨rfl, .inl ⟨rfl, rfl⟩⟩
  · cases hf
    exact ⟨rfl, .inr ⟨a, rfl, rfl⟩⟩

/-- Settles O5: `split` by zero takes the fault on the word presented; an `ArithmeticFault` is the unit's, which only a
`split` by zero gives. -/
theorem onlySplitByZeroIsArithmeticFault : Obligations.OnlySplitByZeroIsArithmeticFault := by
  refine ⟨fun s w rd rs rt hw hd hrt => ?_, fun i s t w hs h hf => ?_⟩
  · rw [step_of_presents_decoded hw hd, exec_split_of_zero rd rs hrt, currentWord_of_presents hw]
    rfl
  · obtain ⟨-, ⟨-, hresult⟩ | ⟨a, hfault, -⟩⟩ := exec_faulted hs h hf
    · exact execute_arithmeticFault_iff.1 hresult
    · cases hfault

/-- Settles O19: at a refused address `gre` and `dr` take the fault on the word presented; a `MemoryFault` is the
unit's, which only such a `gre` or `dr` gives. -/
theorem onlyBadAddressIsMemoryFault : Obligations.OnlyBadAddressIsMemoryFault := by
  refine ⟨fun s w a x rs simm hw hd ha hbad => ?_, fun i s t w a hs h hf => ?_⟩
  · have hrefused : accepts s.params a = false := (accepts_eq_false_iff _ a).2 hbad
    obtain hd | hd := hd <;> rw [step_of_presents_decoded hw hd]
    · rw [exec_gre_of_refused x rs simm ha hrefused, currentWord_of_presents hw]
      rfl
    · rw [exec_dr_of_refused x rs simm ha hrefused, currentWord_of_presents hw]
      rfl
  · obtain ⟨-, ⟨hfault, -⟩ | ⟨b, hfault, hresult⟩⟩ := exec_faulted hs h hf <;> cases hfault
    simpa only [accepts_eq_false_iff] using execute_memoryFault_iff.1 hresult

/-! ### Faults of the front end (R119, R133) -/

/-- Settles O41: the front end takes the fault before anything is executed. -/
theorem undecodableWordIsDecodeFault : Obligations.UndecodableWordIsDecodeFault :=
  fun _ _ => step_of_presents_undecodable

/-- REF's fetch finds neither a program word nor the end of the program (R133, R139). The end is a multiple of 4. -/
theorem wildFetch_iff (s : State) : s.atEnd = false ∧ s.fetchWord = none ↔
    s.pc.toNat % 4 ≠ 0 ∨ s.pc.toNat < 0x00400000 ∨ 0x00400000 + 4 * s.prog.length < s.pc.toNat := by
  refine ⟨fun ⟨hend, hfetch⟩ => (fetchWord_eq_none_iff hend).1 hfetch, fun hwild => ?_⟩
  have hend : s.atEnd = false := by
    rw [← Bool.not_eq_true, atEnd_iff]
    omega
  exact ⟨hend, (fetchWord_eq_none_iff hend).2 hwild⟩

theorem step_of_wildFetch {s : State} (hs : s.status = .running) (hp : s.phase = .run)
    (hwild : s.atEnd = false ∧ s.fetchWord = none) : step s = .next (s.takeFault (.fetch s.pc)) := by
  simp [step, State.frontEnd, hs, hp, State.fetchDecode, hwild]

theorem registerNext_status (s : State) : s.registerNext.status = s.status := by
  unfold State.registerNext
  split <;> rfl

/-- What a step that ends in a fault can be: the fault taken in the state before the step, raised by the fetch, by
the decoder, or by the instruction at `pc` (R117). -/
theorem step_faulted {s t : State} {f : FaultReport} (h : step s = .next t) (hf : t.status = .faulted f) :
    t = s.takeFault f ∧
      ((f = .fetch s.pc ∧ s.atEnd = false ∧ s.fetchWord = none) ∨
        (∃ w, f = .decode w ∧ s.fetchWord = some w ∧ decodeIn s.table s.params.nregs w = none) ∨
        f = .arithmetic s.currentWord ∨ ∃ a, f = .memory s.currentWord a) := by
  obtain ⟨hs, ⟨-, rfl⟩ | ⟨-, -, rfl⟩ | ⟨-, hend, hfetch, rfl⟩ | ⟨-, -, w, hfetch, hd, rfl⟩ | ⟨-, -, w, i, -, -, he⟩⟩ :=
    step_cases h
  · rw [registerNext_status, hs] at hf
    cases hf
  · cases hf
  · cases hf
    exact ⟨rfl, .inl ⟨rfl, hend, hfetch⟩⟩
  · cases hf
    exact ⟨rfl, .inr (.inl ⟨w, rfl, hfetch, hd⟩)⟩
  · obtain ⟨ht, ⟨hfault, -⟩ | ⟨a, hfault, -⟩⟩ := exec_faulted hs he hf
    · exact ⟨ht, .inr (.inr (.inl hfault))⟩
    · exact ⟨ht, .inr (.inr (.inr ⟨a, hfault⟩))⟩

/-- Settles O43: such a `pc` is where the fetch finds nothing, and no other cause of a fault reports a `FetchFault`. -/
theorem wildFetchIsFetchFault : Obligations.WildFetchIsFetchFault := by
  refine ⟨fun s hs hp hwild => step_of_wildFetch hs hp ((wildFetch_iff s).2 hwild), fun s t p h hf => ?_⟩
  obtain ⟨-, ⟨hfault, hwild⟩ | ⟨w, hfault, -⟩ | hfault | ⟨a, hfault⟩⟩ := step_faulted h hf <;> cases hfault
  exact ⟨rfl, (wildFetch_iff s).1 hwild⟩

/-! ### The end of a run (R127, R128, R143) -/

theorem step_of_halted {s : State} (h : s.status = .halted) : step s = .fault .runHalted := by
  simp only [step, State.frontEnd, h]

theorem step_of_faulted {s : State} {f : FaultReport} (h : s.status = .faulted f) : step s = .fault .runFaulted := by
  simp only [step, State.frontEnd, h]

/-- From a running state the front end leaves a step to the host or issues an instruction. -/
theorem frontEnd_of_running {s : State} (h : s.status = .running) :
    (∃ t, s.frontEnd = .host t) ∨ ∃ i, s.frontEnd = .issue i := by
  cases hp : s.phase with
  | population => exact .inl ⟨s.registerNext, by simp only [State.frontEnd, h, hp]⟩
  | run =>
    simp only [State.frontEnd, h, hp, State.fetchDecode]
    split
    · exact .inl ⟨_, rfl⟩
    · split
      · exact .inl ⟨_, rfl⟩
      · split
        · exact .inl ⟨_, rfl⟩
        · exact .inr ⟨_, rfl⟩

theorem step_of_running {s : State} (h : s.status = .running) : ∃ t, step s = .next t := by
  obtain ⟨t, hfront⟩ | ⟨i, hfront⟩ := frontEnd_of_running h <;> simp only [step, hfront]
  · exact ⟨t, rfl⟩
  · exact ⟨_, exec_eq_finish i s⟩

/-- Settles O44: one clause for each status. -/
theorem stoppedRunNeverResumes : Obligations.StoppedRunNeverResumes :=
  ⟨fun _ => step_of_halted, fun _ _ => step_of_faulted, fun _ => step_of_running⟩

/-- Settles O45: every cause of a fault takes it in the state before the step, and a faulted state has no step. -/
theorem faultChangesOnlyTheStatus : Obligations.FaultChangesOnlyTheStatus :=
  fun _ _ _ h hf => ⟨(step_faulted h hf).1, step_of_faulted hf⟩

/-! ### The fault port (R120) -/

/-- The fault a host reads off the port, by the code, for the codes 1 to 4. -/
def faultOfPort (p : PortReport) : FaultReport :=
  match p.kind with
  | 1 => .decode p.info0
  | 2 => .arithmetic p.info0
  | 3 => .memory p.info0 p.info1
  | _ => .fetch p.info0

theorem faultOfPort_port : Function.LeftInverse faultOfPort FaultReport.port
  | .decode _ => rfl
  | .arithmetic _ => rfl
  | .memory _ _ => rfl
  | .fetch _ => rfl

theorem port_kind_mem (f : FaultReport) : f.port.kind ∈ ([1, 2, 3, 4] : List (BitVec 3)) := by
  cases f <;> simp [FaultReport.port]

/-- Settles O54: the rows are the definition's, and a report can be read back off the port. -/
theorem faultPortFollowsItsTable : Obligations.FaultPortFollowsItsTable :=
  fun _ _ _ _ _ => ⟨rfl, rfl, rfl, rfl, rfl, rfl, rfl, rfl,
    fun f _ => ⟨fun hport => faultOfPort_port.injective hport, port_kind_mem f⟩⟩

end Sys2Proof.Machine
end

section
/-! PROOFS. The statements of 70_reset_and_hazards.md: population ends in the run phase, and the run ends normally exactly
at the end of the program. -/

namespace Sys2Proof.Machine

/-! ### The population phase (R135) -/

theorem step_of_population {s : State} (hs : s.status = .running) (hp : s.phase = .population) :
    step s = .next s.registerNext := by
  simp only [step, State.frontEnd, hs, hp]

theorem registerNext_of_pending {s : State} {d : Descriptor} {rest : List Descriptor} (h : s.pending = d :: rest) :
    s.registerNext = { s with
      table := registerKeep s.table d, pending := rest, phase := if rest.isEmpty then .run else .population } := by
  simp only [State.registerNext, h]

/-- By induction on what is left after the first descriptor: with nothing left its registration begins the run phase,
and else leads to a population-phase state with one descriptor fewer. -/
theorem run_of_population {s : State} {d : Descriptor} {rest : List Descriptor} (hs : s.status = .running)
    (hp : s.phase = .population) (h : s.pending = d :: rest) :
    Host.Core.run core (rest.length + 1) s =
      .next { s with table := populate s.table (d :: rest), pending := [], phase := .run } := by
  induction rest generalizing s d with
  | nil =>
    rw [run_of_step (step_of_population hs hp), registerNext_of_pending h]
    rfl
  | cons e rest ih =>
    rw [run_of_step (step_of_population hs hp), registerNext_of_pending h]
    exact ih hs rfl rfl

/-- Settles O39: a non-empty list of pending descriptors has a first one. -/
theorem populationEndsInRunPhase : Obligations.PopulationEndsInRunPhase := by
  intro s ds hs hp hds hne
  obtain ⟨d, rest, rfl⟩ := List.exists_cons_of_ne_nil hne
  exact run_of_population hs hp hds

/-! ### The normal end of a run (R139) -/

theorem step_of_atEnd {s : State} (hs : s.status = .running) (hp : s.phase = .run) (hend : s.atEnd = true) :
    step s = .next s.halt := by
  simp only [step, State.frontEnd, hs, hp, State.fetchDecode, hend, if_true]

/-- No instruction ends a run normally. -/
theorem exec_not_halted {i : Instr} {s t : State} (hs : s.status = .running) (h : exec i s = .next t) :
    t.status ≠ .halted := by
  obtain hkept | ⟨-, w, hfault⟩ | ⟨-, w, a, hfault⟩ := exec_status_cases h
  · simp [hkept, hs]
  · simp [hfault]
  · simp [hfault]

/-- Of the kinds of step only the end of the run ends it normally. -/
theorem atEnd_of_step_halted {s t : State} (h : step s = .next t) (ht : t.status = .halted) :
    s.status = .running ∧ s.phase = .run ∧ s.atEnd = true := by
  obtain ⟨hs, ⟨-, rfl⟩ | ⟨hp, hend, -⟩ | ⟨-, -, -, rfl⟩ | ⟨-, -, w, -, -, rfl⟩ | ⟨-, -, w, i, -, -, he⟩⟩ := step_cases h
  · rw [registerNext_status, hs] at ht
    cases ht
  · exact ⟨hs, hp, hend⟩
  · cases ht
  · cases ht
  · exact absurd ht (exec_not_halted hs he)

/-- Settles O42: at the end the front end halts, no other kind of step does, and a `pc` outside the program other than
its end is a wild fetch. -/
theorem runHaltsExactlyAtProgramEnd : Obligations.RunHaltsExactlyAtProgramEnd := by
  refine ⟨fun s hs hp hpc => step_of_atEnd hs hp ((atEnd_iff s).2 hpc), fun s t h ht => ?_, fun s hs hp hout => ?_⟩
  · obtain ⟨hs, hp, hend⟩ := atEnd_of_step_halted h ht
    exact ⟨hs, hp, (atEnd_iff s).1 hend⟩
  · exact ⟨_, step_of_wildFetch hs hp ((wildFetch_iff s).2 (.inr hout)), rfl⟩

end Sys2Proof.Machine
end
